-- ==== Sys2Proof/Word.lean ====
section
/-! DEFINITION. The widths of the machine: u8, u16, the 12-bit address field and the numbers of the 16 registers
and keys (spec/00_scope.md R9, R11; spec/30_encoding.md R93). -/

namespace Sys2Proof

/-- A u8 (R11): a memory byte, a V register, SP, DT, ST. -/
abbrev Byte := BitVec 8

/-- A u16 (R11): an instruction word, pc, I, a stack slot. -/
abbrev Word := BitVec 16

/-- The 12-bit field NNN of an instruction word (R93). -/
abbrev Addr12 := BitVec 12

/-- The number of a general register V0 to VF (R30). -/
abbrev Reg := Fin 16

/-- A virtual key index 0 to 15 (R19, R43). -/
abbrev Key := Fin 16

end Sys2Proof
end

