-- ==== Sys2Proof/Syntax.lean ====
section
/-! DEFINITION. The instructions: one constructor for each row of spec/opcode_table.json, in the table's order
(spec/30_encoding.md R96, R97, R100). -/

namespace Sys2Proof

/-- An instruction. The first 34 constructors are the instructions of R96; the last four are the classes of
unrecognised words of R100, which keep the fields of their word. -/
inductive Instr
  /-- 00E0, clear screen (R205). -/
  | cls
  /-- 00EE, return from subroutine (R121). -/
  | ret
  /-- 1NNN, jump (R122). -/
  | jp (nnn : Addr12)
  /-- 2NNN, call subroutine (R123). -/
  | call (nnn : Addr12)
  /-- 3XNN, skip if V[X] = NN (R125). -/
  | seImm (x : Reg) (nn : Byte)
  /-- 4XNN, skip if V[X] ≠ NN (R126). -/
  | sneImm (x : Reg) (nn : Byte)
  /-- 5XY0, skip if V[X] = V[Y]; the low nibble of the word is not tested (R98, R127). -/
  | seReg (x y : Reg)
  /-- 6XNN, load immediate (R151). -/
  | ldImm (x : Reg) (nn : Byte)
  /-- 7XNN, add immediate (R152). -/
  | addImm (x : Reg) (nn : Byte)
  /-- 8XY0, copy (R153). -/
  | ldReg (x y : Reg)
  /-- 8XY1, bitwise OR (R154). -/
  | orReg (x y : Reg)
  /-- 8XY2, bitwise AND (R155). -/
  | andReg (x y : Reg)
  /-- 8XY3, bitwise XOR (R156). -/
  | xorReg (x y : Reg)
  /-- 8XY4, add with carry flag (R157). -/
  | addReg (x y : Reg)
  /-- 8XY5, subtract x - y (R158). -/
  | sub (x y : Reg)
  /-- 8XY6, shift right; V[Y] is not read (R159). -/
  | shr (x y : Reg)
  /-- 8XY7, subtract y - x (R160). -/
  | subn (x y : Reg)
  /-- 8XYE, shift left; V[Y] is not read (R161). -/
  | shl (x y : Reg)
  /-- 9XY0, skip if V[X] ≠ V[Y]; the low nibble of the word is not tested (R98, R128). -/
  | sneReg (x y : Reg)
  /-- ANNN, load index (R180). -/
  | ldI (nnn : Addr12)
  /-- BNNN, jump to NNN + V[0] (R124). -/
  | jpV0 (nnn : Addr12)
  /-- CXNN, random byte masked by NN (R162). -/
  | rnd (x : Reg) (nn : Byte)
  /-- DXYN, draw a sprite of N rows (R206). -/
  | drw (x y : Reg) (n : Fin 16)
  /-- EX9E, skip if the key is down (R232). -/
  | skp (x : Reg)
  /-- EXA1, skip if the key is not down (R233). -/
  | sknp (x : Reg)
  /-- FX07, V[X] <- DT (R250). -/
  | ldVxDt (x : Reg)
  /-- FX0A, wait for a key (R234). -/
  | ldVxK (x : Reg)
  /-- FX15, DT <- V[X] (R251). -/
  | ldDtVx (x : Reg)
  /-- FX18, ST <- V[X] (R252). -/
  | ldStVx (x : Reg)
  /-- FX1E, I <- I + V[X] (R181). -/
  | addI (x : Reg)
  /-- FX29, I <- glyph address (R182). -/
  | ldF (x : Reg)
  /-- FX33, decimal digits of V[X] (R183). -/
  | ldB (x : Reg)
  /-- FX55, store V[0] to V[X] (R184). -/
  | ldMemVx (x : Reg)
  /-- FX65, load V[0] to V[X] (R185). -/
  | ldVxMem (x : Reg)
  /-- Class U0: 0x0nnn other than 0x00E0 and 0x00EE (R100). -/
  | unrecU0 (nnn : Addr12)
  /-- Class U8: 8XYN with N one of 8, 9, A, B, C, D, F (R100). -/
  | unrecU8 (x y : Reg) (n : BitVec 4)
  /-- Class UE: EXNN with NN neither 9E nor A1 (R100). -/
  | unrecUE (x : Reg) (nn : Byte)
  /-- Class UF: FXNN with NN none of 07, 0A, 15, 18, 1E, 29, 33, 55, 65 (R100). -/
  | unrecUF (x : Reg) (nn : Byte)
  deriving DecidableEq, Repr

end Sys2Proof
end

