-- ==== Sys2Proof/WellFormed.lean ====
section
/-! DEFINITION. Which terms of `Instr` are instructions: every register number, immediate, height and address the
fields can hold is valid (spec/30_encoding.md R95); an unrecognised word lies in its class (R100). -/

namespace Sys2Proof

/-- The function nibbles of family 8 that select an instruction (R97). -/
def isFunction8 (n : BitVec 4) : Bool :=
  n ∈ [0x0, 0x1, 0x2, 0x3, 0x4, 0x5, 0x6, 0x7, 0xE]

/-- The low bytes of family E that select an instruction (R99). -/
def isFunctionE (nn : Byte) : Bool :=
  nn ∈ [0x9E, 0xA1]

/-- The low bytes of family F that select an instruction (R97). -/
def isFunctionF (nn : Byte) : Bool :=
  nn ∈ [0x07, 0x0A, 0x15, 0x18, 0x1E, 0x29, 0x33, 0x55, 0x65]

/-- The words of family 0 that are instructions, by their low 12 bits (R97). -/
def isFunction0 (nnn : Addr12) : Bool :=
  nnn ∈ [0x0E0, 0x0EE]

/-- An instruction term stands for at least one word (R95, R100). -/
def Instr.wellFormed : Instr → Bool
  | .cls => true
  | .ret => true
  | .jp _ => true
  | .call _ => true
  | .seImm _ _ => true
  | .sneImm _ _ => true
  | .seReg _ _ => true
  | .ldImm _ _ => true
  | .addImm _ _ => true
  | .ldReg _ _ => true
  | .orReg _ _ => true
  | .andReg _ _ => true
  | .xorReg _ _ => true
  | .addReg _ _ => true
  | .sub _ _ => true
  | .shr _ _ => true
  | .subn _ _ => true
  | .shl _ _ => true
  | .sneReg _ _ => true
  | .ldI _ => true
  | .jpV0 _ => true
  | .rnd _ _ => true
  | .drw _ _ _ => true
  | .skp _ => true
  | .sknp _ => true
  | .ldVxDt _ => true
  | .ldVxK _ => true
  | .ldDtVx _ => true
  | .ldStVx _ => true
  | .addI _ => true
  | .ldF _ => true
  | .ldB _ => true
  | .ldMemVx _ => true
  | .ldVxMem _ => true
  | .unrecU0 nnn => !isFunction0 nnn
  | .unrecU8 _ _ n => !isFunction8 n
  | .unrecUE _ nn => !isFunctionE nn
  | .unrecUF _ nn => !isFunctionF nn

end Sys2Proof
end

