-- ==== Sys2Proof/Config.lean ====
section
/-! DEFINITION. What is fixed for one machine: the parameters of spec/00_scope.md R9 and R10, the two that a creation
chooses (`Config`), and the values the spec leaves free (constants with no body). -/

namespace Sys2Proof

/-- UNKNOWN_OPCODE_POLICY (R10, R101): what an unrecognised word does. -/
inductive UnknownOpcodePolicy
  | ignore
  | fault
  deriving DecidableEq, Repr

/-- The configuration a creation is given (R10, R48): it is fixed from then on and no operation writes it. -/
structure Config where
  /-- UNKNOWN_OPCODE_POLICY (R101). -/
  policy : UnknownOpcodePolicy
  /-- FONT, the 80 glyph bytes that creation puts at 0x000 to 0x04F (R10, R69). -/
  font : Vector Byte 80
  deriving DecidableEq, Repr

namespace Config

/-- MEM_SIZE: bytes of memory (R9). -/
abbrev memSize : Nat := 4096

/-- STACK_DEPTH: return-address slots (R9). -/
abbrev stackDepth : Nat := 16

/-- NUM_KEYS: virtual keys (R9). -/
abbrev numKeys : Nat := 16

/-- SCREEN_W: framebuffer columns (R9). -/
abbrev screenW : Nat := 64

/-- SCREEN_H: framebuffer rows (R9). -/
abbrev screenH : Nat := 32

/-- SPRITE_W: bit-columns of a sprite (R9). -/
abbrev spriteW : Nat := 8

/-- FONT_BASE: the address of glyph 0 (R9, R68). -/
abbrev fontBase : Nat := 0

/-- FONT_SIZE: bytes of the font table (R9). -/
abbrev fontSize : Nat := 80

/-- GLYPH_HEIGHT: bytes of one glyph (R9). -/
abbrev glyphHeight : Nat := 5

/-- LOAD_OFFSET: where a program is loaded and where it starts (R9, R302). -/
abbrev loadOffset : Nat := 0x200

/-- FLAG: the number of the flag register VF (R9, R31). -/
abbrev flagReg : Reg := 15

/-- The free draws of CXNN (R10, R162, D20): the byte of the n-th draw, any byte, with no law. DESIGN CHOICE (log 6):
a constant with no body, applied to the counter `draws` of State; safe. -/
opaque draw : Nat → Byte

/-- KEY_MAP (R10, R231, D36): the default key map, 16 external identifiers whose values the spec does not give. It is
host configuration and no instruction reads it. DESIGN CHOICE (log 7): identifiers are natural numbers; safe. -/
opaque defaultKeyMap : Vector Nat 16

end Config

end Sys2Proof
end

