-- ==== Sys2Proof/Machine/Font.lean ====
section
/-! DEFINITION. The default of the configuration parameter FONT (spec/20_memory.md R69) and the default configuration
(spec/00_scope.md R10). -/

namespace Sys2Proof

/-- The standard CHIP-8 hexadecimal font, glyph d at 5d to 5d + 4, top row first (R69). PRESUMED (log 5): the spec gives
these bytes as general knowledge, not from its source; unsafe for a claim about a glyph's pixels. -/
def standardFont : Vector Byte 80 := #v[
  0xF0, 0x90, 0x90, 0x90, 0xF0,
  0x20, 0x60, 0x20, 0x20, 0x70,
  0xF0, 0x10, 0xF0, 0x80, 0xF0,
  0xF0, 0x10, 0xF0, 0x10, 0xF0,
  0x90, 0x90, 0xF0, 0x10, 0x10,
  0xF0, 0x80, 0xF0, 0x10, 0xF0,
  0xF0, 0x80, 0xF0, 0x90, 0xF0,
  0xF0, 0x10, 0x20, 0x40, 0x40,
  0xF0, 0x90, 0xF0, 0x90, 0xF0,
  0xF0, 0x90, 0xF0, 0x10, 0xF0,
  0xF0, 0x90, 0xF0, 0x90, 0x90,
  0xE0, 0x90, 0xE0, 0x90, 0xE0,
  0xF0, 0x80, 0x80, 0x80, 0xF0,
  0xE0, 0x90, 0x90, 0x90, 0xE0,
  0xF0, 0x80, 0xF0, 0x80, 0xF0,
  0xF0, 0x80, 0xF0, 0x80, 0x80]

/-- The default configuration: policy Ignore (R101, D21) and the standard font (R69, D18). DESIGN CHOICE (log 4). -/
def Config.standard : Config := { policy := .ignore, font := standardFont }

end Sys2Proof
end

