-- ==== Sys2Proof/Machine/State.lean ====
section
/-! DEFINITION. The state of the machine as plain data, every reason it stops, and the state after reset
(spec/10_state.md, spec/60_exceptions.md R260 to R263, spec/70_reset_and_hazards.md R300 to R303). -/

namespace Sys2Proof.Machine

/-- A fatal fault with all that it records: its kind, its info and, for a fault raised in a step, `fault_pc`, the address
of the word that caused it (R260, R261). Each ends the operation and halts the machine; what else the state holds is then
unspecified (R262), and no constructor says anything of it. Safe (log 1). -/
inductive Fault
  /-- FETCH_OOB, code 1: raised by the fetch of a step when pc or pc + 1 is outside memory; info and `fault_pc` are pc
  (R64). Safe: the spec's own fault. -/
  | fetchOob (pc : Word)
  /-- MEM_READ_OOB, code 2: raised by DXYN and FX65 when a data read is outside memory; info is the address, an unbounded
  integer (R61, R62). Safe: the spec's own fault. -/
  | memReadOob (addr : Nat) (faultPc : Word)
  /-- MEM_WRITE_OOB, code 3: raised by FX33 and FX55 when a data write is outside memory; info is the address (R63).
  Safe: the spec's own fault. -/
  | memWriteOob (addr : Nat) (faultPc : Word)
  /-- STACK_OVERFLOW, code 4: raised by 2NNN with 16 slots occupied; info is the return address (R39). Safe: the spec's
  own fault. -/
  | stackOverflow (ret : Word) (faultPc : Word)
  /-- STACK_UNDERFLOW, code 5: raised by 00EE with no slot occupied; info is 0 (R39). Safe: the spec's own fault. -/
  | stackUnderflow (faultPc : Word)
  /-- IMAGE_TOO_LARGE, code 6: raised by the load of an image of more than 3584 bytes; info is the length (R302). Safe:
  the spec's own fault. -/
  | imageTooLarge (len : Nat)
  /-- PIXEL_OOB, code 7: raised by isSet and setPixel outside the screen; info is (x, y) (R201, R202). Safe: the spec's
  own fault. -/
  | pixelOob (x y : Nat)
  /-- KEY_INDEX_OOB, code 8: raised by EX9E and EXA1 with V[X] > 15; info is V[X] (R232, R233). Safe: the spec's own
  fault. -/
  | keyIndexOob (k : Byte) (faultPc : Word)
  /-- UNKNOWN_OPCODE, code 9: raised by an unrecognised word under policy Fault only; info is the word (R101). Safe: the
  spec's own fault. -/
  | unknownOpcode (w : Word) (faultPc : Word)
  deriving DecidableEq, Repr

/-- Why the model has no move. -/
inductive Refusal
  /-- An instruction of the table without a meaning yet, raised by its arm of `exec` only; no arm of this model does.
  Safe. -/
  | notModelled (mnemonic : String)
  /-- A host operation, `step` among them, on a halted machine: "no step exists from it" and "no host operation has a
  defined effect" (R263, U2). Safe (log 2). -/
  | haltedMachine
  /-- 00EE in a state whose SP is neither 0xFF nor a slot number. The spec gives such a state no meaning, since "SP never
  takes another value" (R38), and no run reaches one. Safe (log 11). -/
  | illegalStackPointer
  deriving DecidableEq, Repr

/-- The engine state (R45). -/
inductive Mode
  /-- `Running`: steps fetch and execute. -/
  | running
  /-- `WaitingKey(x)`: parked in FX0A, whose destination is V[x]. -/
  | waitingKey (x : Reg)
  /-- `Halted(kind, info)`, with its `fault_pc` (R261): a fault has been raised. -/
  | halted (f : Fault)
  deriving DecidableEq, Repr

/-- Everything the spec gives the machine (R30 to R48), under the spec's own names, with the configuration chosen at
creation and the model's counter of random draws. -/
structure State where
  /-- V0 to VF (R30); V[15] is VF, the flag register (R31). -/
  V : Vector Byte 16
  /-- The index register (R36). -/
  I : Word
  /-- The program counter (R33). -/
  pc : Word
  /-- The stack pointer: 0xFF when empty, else the number of the top slot (R38). -/
  SP : Byte
  /-- The call stack (R37). -/
  stack : Vector Word 16
  /-- The delay timer (R41). -/
  DT : Byte
  /-- The sound timer (R42). -/
  ST : Byte
  /-- The key state; true means down (R43). -/
  keys : Vector Bool 16
  /-- The framebuffer, 32 rows of 64 pixels; true means on (R44). -/
  fb : Vector (Vector Bool 64) 32
  /-- Memory (R60): the bytes that differ from what creation put there, by rising address (log 8). -/
  mem : List Host.Cell
  /-- The engine state (R45). -/
  mode : Mode
  /-- The configuration given at creation (R48); nothing writes it (log 4). -/
  cfg : Config
  /-- How many random bytes CXNN has drawn: the model's own counter, no state of the hardware (R47, log 6). -/
  draws : Nat
  deriving DecidableEq, Repr

/-- The state after creation with the default configuration and the load of an empty image (R50, R300, R302, R303).
Memory lists nothing: it holds FONT and zeros. DESIGN CHOICE (log 4, log 6, log 9): the configuration is the spec's
default, `draws` starts at 0, the image is empty. -/
def State.reset : State where
  V := Vector.replicate 16 0x00
  I := 0x0000
  pc := 0x0200
  SP := 0xFF
  stack := Vector.replicate 16 0x0000
  DT := 0x00
  ST := 0x00
  keys := Vector.replicate 16 false
  fb := Vector.replicate 32 (Vector.replicate 64 false)
  mem := []
  mode := .running
  cfg := Config.standard
  draws := 0

end Sys2Proof.Machine
end

