-- ==== Sys2Proof/Machine/Memory.lean ====
section
/-! DEFINITION. Memory as data: a list of (address, byte) cells in one canonical form (spec/20_memory.md R60, R68;
spec/70_reset_and_hazards.md R300). The bounds of R62 to R64 are checked by the operations of Machine/Ops.lean. -/

namespace Sys2Proof.Machine

/-- What an address that the list does not name reads as: what creation put there, FONT from FONT_BASE on and zero
elsewhere (R68, R300; log 8). -/
def initialByte (font : Vector Byte 80) (a : Nat) : Byte :=
  if h : a < Config.fontSize then font[a] else 0x00

namespace Memory

/-- The byte at an address. -/
def read (font : Vector Byte 80) : List Host.Cell → Nat → Byte
  | [], a => initialByte font a
  | (k, b) :: rest, a => if a = k then b else read font rest a

/-- Put a cell before a list whose addresses are all higher, unless it says what the address reads as anyway. -/
def cons (font : Vector Byte 80) (a : Nat) (b : Byte) (m : List Host.Cell) : List Host.Cell :=
  if b = initialByte font a then m else (a, b) :: m

/-- Write one byte, keeping the canonical form. -/
def write (font : Vector Byte 80) : List Host.Cell → Nat → Byte → List Host.Cell
  | [], a, b => cons font a b []
  | (k, c) :: rest, a, b =>
    if a < k then cons font a b ((k, c) :: rest)
    else if a = k then cons font a b rest
    else (k, c) :: write font rest a b

/-- The cells from `lo` on: addresses strictly rising, in memory, and no cell equal to what its address reads as
unlisted. -/
def wfFrom (font : Vector Byte 80) : Nat → List Host.Cell → Bool
  | _, [] => true
  | lo, (k, b) :: rest =>
    decide (lo ≤ k) && decide (k < Config.memSize) && decide (b ≠ initialByte font k) && wfFrom font (k + 1) rest

/-- The canonical form of memory. -/
def wf (font : Vector Byte 80) (m : List Host.Cell) : Bool := wfFrom font 0 m

end Memory

end Sys2Proof.Machine
end

