-- ==== Sys2Proof/Machine/Ops.lean ====
section
/-! DEFINITION. The named operations over the state: updates of one field, faults, memory accesses, fetch, the call
stack, skips and the random draw (spec/00_scope.md R13 to R17, spec/10_state.md R39, spec/20_memory.md R61 to R64). -/

namespace Sys2Proof.Machine

/-- What an operation answers: a value (often a state), a fault or a refusal. -/
abbrev Result (α : Type) := Host.Outcome α Fault Refusal

/-- Run an operation and then, if it answered a value, the next one: the statements of a rule run in order, and a fault
ends the operation at once (R16, R17, R262). -/
def andThen {α β : Type} (r : Result α) (k : α → Result β) : Result β :=
  match r with
  | .next a => k a
  | .fault f => .fault f
  | .refused q => .refused q

/-- Raise a fault, the one way an operation of this machine takes an exception (R16, R262): it ends at once with the
record of R261. The machine has no handler and no return from an exception (R266). -/
def raise {α : Type} (f : Fault) : Result α := .fault f

/-- The halted state that a fault leaves: `mode` is `Halted` with the fault's record, and everything else is
`leftover`'s, which the spec does not fix (R262; log 1). -/
def haltedState (f : Fault) (leftover : State) : State := { leftover with mode := .halted f }

namespace State

/-! ### Updates of one field (R13) -/

/-- `V[x]` (R13). -/
def reg (s : State) (x : Reg) : Byte := s.V[x.val]

/-- `V[x] <- b` (R13). -/
def setReg (s : State) (x : Reg) (b : Byte) : State := { s with V := s.V.set x.val b }

/-- `VF <- b`: the flag register is V[15] (R31). -/
def setFlag (s : State) (b : Byte) : State := s.setReg Config.flagReg b

/-- `I <- w` (R36). -/
def setI (s : State) (w : Word) : State := { s with I := w }

/-- `pc <- w`, unchecked (R35, R130). -/
def setPc (s : State) (w : Word) : State := { s with pc := w }

/-- `SP <- b` (R39). -/
def setSP (s : State) (b : Byte) : State := { s with SP := b }

/-- `stack[k] <- w` (R39). -/
def setSlot (s : State) (k : Fin 16) (w : Word) : State := { s with stack := s.stack.set k.val w }

/-- `DT <- b` (R41). -/
def setDT (s : State) (b : Byte) : State := { s with DT := b }

/-- `ST <- b` (R42). -/
def setST (s : State) (b : Byte) : State := { s with ST := b }

/-- `keys[k] <- b` (R43). -/
def setKey (s : State) (k : Key) (b : Bool) : State := { s with keys := s.keys.set k.val b }

/-- Replace the framebuffer (R44). -/
def setFb (s : State) (fb : Vector (Vector Bool 64) 32) : State := { s with fb := fb }

/-- Replace the memory cells (R60). -/
def setMem (s : State) (m : List Host.Cell) : State := { s with mem := m }

/-- `mode <- m` (R45). -/
def setMode (s : State) (m : Mode) : State := { s with mode := m }

/-- Count one random draw (R162; log 6). -/
def nextDraw (s : State) : State := { s with draws := s.draws + 1 }

/-! ### Memory bytes without a check -/

/-- The byte that memory holds at an address. -/
def byteAt (s : State) (a : Nat) : Byte := Memory.read s.cfg.font s.mem a

/-- Put a byte into memory; the callers check the address. -/
def putByte (s : State) (a : Nat) (b : Byte) : State := s.setMem (Memory.write s.cfg.font s.mem a b)

/-- Put bytes into memory from an address on. -/
def putBytes (s : State) (a : Nat) : List Byte → State
  | [] => s
  | b :: rest => (s.putByte a b).putBytes (a + 1) rest

/-- The address of the word that an execute phase is running: pc has already been advanced by 2, without a wrap, since
the fetch succeeded (R33, R91, R261; log 3). -/
def faultPc (s : State) : Word := s.pc - 2

end State

/-! ### Checked accesses -/

/-- `MemRead(addr, 1)`: bounds-checked read of one byte (R62). -/
def memRead (s : State) (addr : Nat) : Result Byte :=
  if addr < Config.memSize then .next (s.byteAt addr) else raise (.memReadOob addr s.faultPc)

/-- `MemWrite(addr, 1, v)`: bounds-checked write of one byte; out of bounds it changes nothing and faults (R63). -/
def memWrite (s : State) (addr : Nat) (v : Byte) : Result State :=
  if addr < Config.memSize then .next (s.putByte addr v) else raise (.memWriteOob addr s.faultPc)

/-- `FetchInsn(pc)`: the big-endian word at pc, or FETCH_OOB (R64). No alignment is required (R65). -/
def fetchInsn (s : State) : Result Word :=
  if s.pc.toNat < Config.memSize ∧ s.pc.toNat + 1 < Config.memSize then
    .next (wordOfBytes (s.byteAt s.pc.toNat) (s.byteAt (s.pc.toNat + 1)))
  else raise (.fetchOob s.pc)

/-- Read `n` bytes from an address on, ascending; the lowest address out of bounds faults (R61, R66, R265). -/
def readBytes (s : State) (addr : Nat) : Nat → Result (List Byte)
  | 0 => .next []
  | n + 1 => andThen (memRead s addr) fun b => andThen (readBytes s (addr + 1) n) fun rest => .next (b :: rest)

/-- Write bytes from an address on, ascending; the lowest address out of bounds faults (R61, R66, R265). -/
def writeBytes (s : State) (addr : Nat) : List Byte → Result State
  | [] => .next s
  | b :: rest => andThen (memWrite s addr b) fun t => writeBytes t (addr + 1) rest

/-- `V[k..] <- bytes`: give consecutive registers the bytes of a list, ascending (R185). A list that reaches past VF
is cut there; no instruction has one. -/
def setRegs (s : State) (k : Nat) : List Byte → State
  | [] => s
  | b :: rest => if h : k < 16 then setRegs (s.setReg ⟨k, h⟩ b) (k + 1) rest else s

/-! ### The call stack (R39) -/

/-- The number of occupied slots: 0 when SP is 0xFF, else SP + 1 (R38, R39). -/
def stackDepthOf (sp : Byte) : Nat := if sp = 0xFF then 0 else sp.toNat + 1

/-- `Push(a)`: increment, then write; STACK_OVERFLOW with 16 slots occupied (R39). -/
def push (s : State) (a : Word) : Result State :=
  if h : stackDepthOf s.SP < Config.stackDepth then
    .next ((s.setSP (s.SP + 1)).setSlot ⟨stackDepthOf s.SP, h⟩ a)
  else raise (.stackOverflow a s.faultPc)

/-- `Pop()`: read, then decrement; STACK_UNDERFLOW with no slot occupied (R39). The popped slot keeps its value. -/
def pop (s : State) : Result (Word × State) :=
  if s.SP = 0xFF then raise (.stackUnderflow s.faultPc)
  else if h : s.SP.toNat < Config.stackDepth then
    .next (s.stack[s.SP.toNat], s.setSP (if s.SP = 0 then 0xFF else s.SP - 1))
  else .refused .illegalStackPointer

/-! ### Program counter -/

/-- The default advance, before dispatch (R90, R91). -/
def advance (s : State) : State := s.setPc (s.pc + 2)

/-- `skip()` when the condition holds: 2 more on top of the default advance (R17, R91, R120). -/
def skipIf (c : Bool) (s : State) : State := if c then s.setPc (s.pc + 2) else s

/-! ### Random -/

/-- `draw_u8()`: a free byte, a new one for each execution (R162; log 6). -/
def drawByte (s : State) : Byte × State := (Config.draw s.draws, s.nextDraw)

/-! ### Placing an instruction where the next fetch finds it -/

/-- Where `withFetchWord` puts a word: at pc, or at LOAD_OFFSET when pc cannot be fetched from (log 9). -/
def placeOf (s : State) : Word :=
  if s.pc.toNat + 1 < Config.memSize then s.pc else BitVec.ofNat 16 Config.loadOffset

/-- Store the bytes of an instruction where the next step fetches and let the engine run (log 9). -/
def placeBytes (s : State) (bytes : List Byte) : State :=
  ((s.setPc (placeOf s)).setMode .running).putBytes (placeOf s).toNat bytes

end Sys2Proof.Machine
end

