-- ==== Sys2Proof/Machine/Operands.lean ====
section
/-! DEFINITION. Every operand form of the instruction set (spec/30_encoding.md R95; spec/42_index_memory.md R186): an
immediate is used as it is, an address is zero-extended, a memory address is I plus an offset and never wraps. -/

namespace Sys2Proof.Machine

/-- `zext_16(NNN)`: an absolute address (R95). -/
def absolute (nnn : Addr12) : Word := nnn.setWidth 16

/-- `zext_16(b)` of a register value (R14). -/
def zext16 (b : Byte) : Word := b.setWidth 16

/-- BNNN's target, `NNN + V[0]`; it cannot wrap (R124). -/
def offsetTarget (s : State) (nnn : Addr12) : Word := absolute nnn + zext16 (s.reg 0)

/-- The effective address `I + k`, an unbounded integer (R61, R66). -/
def effAddr (s : State) (k : Nat) : Nat := s.I.toNat + k

/-- The address of the glyph of a byte's low nibble, `FONT_BASE + GLYPH_HEIGHT * (b & 0x0F)` (R182). -/
def glyphAddr (b : Byte) : Word :=
  BitVec.ofNat 16 (Config.fontBase + Config.glyphHeight * (b &&& 0x0F).toNat)

/-- The decimal digits of a byte: hundreds, tens, ones (R183). -/
def bcdDigits (v : Byte) : List Byte :=
  [BitVec.ofNat 8 (v.toNat / 100), BitVec.ofNat 8 (v.toNat / 10 % 10), BitVec.ofNat 8 (v.toNat % 10)]

/-- The values of V[0] to V[x], in order (R184). -/
def regsUpTo (s : State) (x : Reg) : List Byte := s.V.toList.take (x.val + 1)

/-- The virtual key that a byte names, if it is one of the 16 (R232, R233). -/
def keyOf (b : Byte) : Option Key := if h : b.toNat < Config.numKeys then some ⟨b.toNat, h⟩ else none

end Sys2Proof.Machine
end

