-- ==== Sys2Proof/Machine/Flags.lean ====
section
/-! DEFINITION. Results of the ALU and the flag that goes with each (spec/41_alu.md R150, R157 to R163): results are
unsigned modulo 256, and each flag is computed from the operands before any write. -/

namespace Sys2Proof.Machine

/-- `bool2u8(b)` (R14). -/
def bool2u8 (b : Bool) : Byte := if b then 1 else 0

/-- 8XY4's result: the sum modulo 256 (R157). -/
def addResult (vx vy : Byte) : Byte := BitVec.ofNat 8 (vx.toNat + vy.toNat)

/-- 8XY4's flag: the exact sum exceeds 255 (R157). -/
def addFlag (vx vy : Byte) : Byte := bool2u8 (decide (vx.toNat + vy.toNat > 255))

/-- The difference `a - b` modulo 256, the result of 8XY5 and, with the operands exchanged, of 8XY7 (R158, R160). -/
def subResult (a b : Byte) : Byte := BitVec.ofInt 8 ((a.toNat : Int) - (b.toNat : Int))

/-- The flag of `a - b`: strictly greater, unsigned, so equal operands give 0 (R158, R160, R163). -/
def subFlag (a b : Byte) : Byte := bool2u8 (decide (a.toNat > b.toNat))

/-- 8XY6's result: half, rounded down (R159). -/
def shrResult (vx : Byte) : Byte := vx >>> 1

/-- 8XY6's flag: bit 0 before the shift (R159). -/
def shrFlag (vx : Byte) : Byte := vx &&& 1

/-- 8XYE's result: the double modulo 256 (R161). -/
def shlResult (vx : Byte) : Byte := vx <<< 1

/-- 8XYE's flag: bit 7 before the shift (R161). -/
def shlFlag (vx : Byte) : Byte := (vx >>> 7) &&& 1

/-- Write a result to V[x] and then a flag to VF: with x = F the flag stays (R31, R150). -/
def setResultFlag (s : State) (x : Reg) (result flag : Byte) : State := (s.setReg x result).setFlag flag

end Sys2Proof.Machine
end

