-- ==== Sys2Proof/Machine/Alu.lean ====
section
/-! DEFINITION. Register loads, ALU and random (spec/41_alu.md R150 to R163). None of these changes pc beyond the default
advance, and none can fault. -/

namespace Sys2Proof.Machine

/-- 6XNN: `V[X] <- NN` (R151). -/
def execLdImm (x : Reg) (nn : Byte) (s : State) : Result State :=
  .next (s.setReg x nn)

/-- 7XNN: `V[X] <- trunc8(V[X] + NN)`; VF is not written as a flag (R152). -/
def execAddImm (x : Reg) (nn : Byte) (s : State) : Result State :=
  .next (s.setReg x (addResult (s.reg x) nn))

/-- 8XY0: `V[X] <- V[Y]` (R153). -/
def execLdReg (x y : Reg) (s : State) : Result State :=
  .next (s.setReg x (s.reg y))

/-- 8XY1: `V[X] <- V[X] | V[Y]`, no flag (R154). -/
def execOrReg (x y : Reg) (s : State) : Result State :=
  .next (s.setReg x (s.reg x ||| s.reg y))

/-- 8XY2: `V[X] <- V[X] & V[Y]`, no flag (R155). -/
def execAndReg (x y : Reg) (s : State) : Result State :=
  .next (s.setReg x (s.reg x &&& s.reg y))

/-- 8XY3: `V[X] <- V[X] ^ V[Y]`, no flag (R156). -/
def execXorReg (x y : Reg) (s : State) : Result State :=
  .next (s.setReg x (s.reg x ^^^ s.reg y))

/-- 8XY4: the sum, then VF = 1 iff it exceeds 255 (R157). -/
def execAddReg (x y : Reg) (s : State) : Result State :=
  .next (setResultFlag s x (addResult (s.reg x) (s.reg y)) (addFlag (s.reg x) (s.reg y)))

/-- 8XY5: `V[X] - V[Y]`, then VF = 1 iff V[X] was strictly greater (R158). -/
def execSub (x y : Reg) (s : State) : Result State :=
  .next (setResultFlag s x (subResult (s.reg x) (s.reg y)) (subFlag (s.reg x) (s.reg y)))

/-- 8XY6: `V[X] >> 1`, then VF = old bit 0; V[Y] is not read (R159). -/
def execShr (x _y : Reg) (s : State) : Result State :=
  .next (setResultFlag s x (shrResult (s.reg x)) (shrFlag (s.reg x)))

/-- 8XY7: `V[Y] - V[X]`, then VF = 1 iff V[Y] was strictly greater (R160). -/
def execSubn (x y : Reg) (s : State) : Result State :=
  .next (setResultFlag s x (subResult (s.reg y) (s.reg x)) (subFlag (s.reg y) (s.reg x)))

/-- 8XYE: `V[X] << 1`, then VF = old bit 7; V[Y] is not read (R161). -/
def execShl (x _y : Reg) (s : State) : Result State :=
  .next (setResultFlag s x (shlResult (s.reg x)) (shlFlag (s.reg x)))

/-- CXNN: `V[X] <- r & NN`, r a free byte (R162; log 6). -/
def execRnd (x : Reg) (nn : Byte) (s : State) : Result State :=
  .next ((drawByte s).2.setReg x ((drawByte s).1 &&& nn))

end Sys2Proof.Machine
end

