-- ==== Sys2Proof/Machine/Control.lean ====
section
/-! DEFINITION. Control transfer and the skips on registers (spec/40_control_flow.md R120 to R130). Each runs with
pc = a + 2, a the address of its word (R91). -/

namespace Sys2Proof.Machine

/-- 00EE: `pc <- Pop()` (R121). -/
def execRet (s : State) : Result State :=
  andThen (pop s) fun p => .next (p.2.setPc p.1)

/-- 1NNN: `pc <- zext_16(NNN)` (R122). -/
def execJp (nnn : Addr12) (s : State) : Result State :=
  .next (s.setPc (absolute nnn))

/-- 2NNN: push the advanced pc, then jump (R123). -/
def execCall (nnn : Addr12) (s : State) : Result State :=
  andThen (push s s.pc) fun t => .next (t.setPc (absolute nnn))

/-- BNNN: `pc <- zext_16(NNN) + zext_16(V[0])`; the register is V[0], never V[X] (R124). -/
def execJpV0 (nnn : Addr12) (s : State) : Result State :=
  .next (s.setPc (offsetTarget s nnn))

/-- 3XNN: skip if V[X] = NN (R125). -/
def execSeImm (x : Reg) (nn : Byte) (s : State) : Result State :=
  .next (skipIf (s.reg x == nn) s)

/-- 4XNN: skip if V[X] ≠ NN (R126). -/
def execSneImm (x : Reg) (nn : Byte) (s : State) : Result State :=
  .next (skipIf (s.reg x != nn) s)

/-- 5XY0: skip if V[X] = V[Y] (R127). -/
def execSeReg (x y : Reg) (s : State) : Result State :=
  .next (skipIf (s.reg x == s.reg y) s)

/-- 9XY0: skip if V[X] ≠ V[Y] (R128). -/
def execSneReg (x y : Reg) (s : State) : Result State :=
  .next (skipIf (s.reg x != s.reg y) s)

end Sys2Proof.Machine
end

