-- ==== Sys2Proof/Machine/FrameBuffer.lean ====
section
/-! DEFINITION. The framebuffer's primitives (spec/43_display.md R200 to R203): clear, setPixel, isSet and the XOR blit
with its collision detector. -/

namespace Sys2Proof.Machine

/-- The 64 by 32 grid, `fb[r][c]` (R44). -/
abbrev Grid := Vector (Vector Bool 64) 32

namespace Grid

/-- The pixel at row `r`, column `c`. -/
def pixel (g : Grid) (r : Fin 32) (c : Fin 64) : Bool := (g[r.val])[c.val]

/-- Set the pixel at row `r`, column `c`. -/
def setTo (g : Grid) (r : Fin 32) (c : Fin 64) (b : Bool) : Grid :=
  g.set r.val ((g[r.val]).set c.val b)

/-- `clear()`: every pixel off (R200). -/
def blank : Grid := Vector.replicate 32 (Vector.replicate 64 false)

end Grid

/-- The row that a vertical coordinate wraps to, modulo 32 (R203). -/
def rowOf (y : Nat) : Fin 32 := ⟨y % Config.screenH, Nat.mod_lt _ (by decide)⟩

/-- The column that a horizontal coordinate wraps to, modulo 64 (R203). -/
def colOf (x : Nat) : Fin 64 := ⟨x % Config.screenW, Nat.mod_lt _ (by decide)⟩

/-- A blit in progress: the grid so far, and whether a pixel has gone from on to off. -/
structure Blit where
  grid : Grid
  collided : Bool
  deriving DecidableEq, Repr

/-- Toggle one pixel; a pixel that was on is a collision, which is never reset (R203). -/
def Blit.toggle (t : Blit) (r : Fin 32) (c : Fin 64) : Blit :=
  { grid := t.grid.setTo r c (!t.grid.pixel r c), collided := t.collided || t.grid.pixel r c }

/-- The first `n` bit-columns of one sprite row at (x, y), most significant bit first: a 1 bit toggles its pixel, a 0 bit
leaves it alone (R203). -/
def Blit.columns (t : Blit) (x y : Nat) (row : Byte) : Nat → Blit
  | 0 => t
  | n + 1 =>
    let u := t.columns x y row n
    if row.getLsbD (7 - n) then u.toggle (rowOf y) (colOf (x + n)) else u

/-- The rows of a sprite, top first (R203). -/
def Blit.rows (t : Blit) (x y : Nat) : List Byte → Blit
  | [] => t
  | row :: rest => (t.columns x y row Config.spriteW).rows x (y + 1) rest

/-- `drawSprite(x, y, rows, n)`: the XOR blit and its collision result; coordinates wrap and it never faults (R203). -/
def drawSprite (g : Grid) (x y : Byte) (sprite : List Byte) : Blit :=
  Blit.rows { grid := g, collided := false } x.toNat y.toNat sprite

/-- `setPixel(x, y)`, bounds-checked; no instruction calls it (R201). -/
def setPixel (s : State) (x y : Nat) : Result State :=
  if h : x < Config.screenW ∧ y < Config.screenH then
    .next (s.setFb (Grid.setTo s.fb ⟨y, h.2⟩ ⟨x, h.1⟩ true))
  else raise (.pixelOob x y)

/-- `isSet(x, y)`, bounds-checked (R202). -/
def isSet (s : State) (x y : Nat) : Result Bool :=
  if h : x < Config.screenW ∧ y < Config.screenH then
    .next (Grid.pixel s.fb ⟨y, h.2⟩ ⟨x, h.1⟩)
  else raise (.pixelOob x y)

end Sys2Proof.Machine
end

