-- ==== Sys2Proof/Machine/Display.lean ====
section
/-! DEFINITION. The two display instructions (spec/43_display.md R205, R206). -/

namespace Sys2Proof.Machine

/-- 00E0: `clear()`; VF is not written (R205). -/
def execCls (s : State) : Result State :=
  .next (s.setFb Grid.blank)

/-- DXYN: read N bytes at I, draw them at (V[X], V[Y]), and write the collision result to VF on every execution; the
coordinates are read before VF is written (R206). -/
def execDrw (x y : Reg) (n : Fin 16) (s : State) : Result State :=
  andThen (readBytes s (effAddr s 0) n.val) fun sprite =>
    let t := drawSprite s.fb (s.reg x) (s.reg y) sprite
    .next ((s.setFb t.grid).setFlag (bool2u8 t.collided))

end Sys2Proof.Machine
end

