-- ==== Sys2Proof/Machine/Index.lean ====
section
/-! DEFINITION. The index register, the font address, decimal digits and bulk store and load (spec/42_index_memory.md
R180 to R185). None of these changes pc beyond the default advance, and none changes I after an access. -/

namespace Sys2Proof.Machine

/-- ANNN: `I <- zext_16(NNN)` (R180). -/
def execLdI (nnn : Addr12) (s : State) : Result State :=
  .next (s.setI (absolute nnn))

/-- FX1E: `I <- trunc16(I + zext_16(V[X]))`, no flag (R181). -/
def execAddI (x : Reg) (s : State) : Result State :=
  .next (s.setI (s.I + zext16 (s.reg x)))

/-- FX29: I at the glyph of V[X]'s low nibble (R182). -/
def execLdF (x : Reg) (s : State) : Result State :=
  .next (s.setI (glyphAddr (s.reg x)))

/-- FX33: hundreds, tens and ones of V[X] at I, I + 1, I + 2, in that order (R183). -/
def execLdB (x : Reg) (s : State) : Result State :=
  writeBytes s (effAddr s 0) (bcdDigits (s.reg x))

/-- FX55: V[0] to V[X] at I, I + 1, …, ascending; I is unchanged (R184). -/
def execLdMemVx (x : Reg) (s : State) : Result State :=
  writeBytes s (effAddr s 0) (regsUpTo s x)

/-- FX65: V[0] to V[X] from I, I + 1, …, ascending; I is unchanged (R185). -/
def execLdVxMem (x : Reg) (s : State) : Result State :=
  andThen (readBytes s (effAddr s 0) (x.val + 1)) fun bytes => .next (setRegs s 0 bytes)

end Sys2Proof.Machine
end

