-- ==== Sys2Proof/Machine/Keyboard.lean ====
section
/-! DEFINITION. The keyboard state, the key skips and the key wait (spec/44_keyboard.md R230 to R235), and the host-side
key map (R231). -/

namespace Sys2Proof.Machine

/-- `isDown(k)` (R230). -/
def isDown (s : State) (k : Key) : Bool := s.keys[k.val]

/-- `KeyDownEvent(k)`: the first one after FX0A latches the key and ends the wait (R235). -/
def keyDownEvent (s : State) (k : Key) : State :=
  match s.mode with
  | .waitingKey x => (s.setReg x (BitVec.ofNat 8 k.val)).setMode .running
  | .running => s
  | .halted _ => s

/-- `setDown(k)`: the key is down, and that is a key-down event, also when it was down already (R230). -/
def setDown (s : State) (k : Key) : State := keyDownEvent (s.setKey k true) k

/-- `setUp(k)` (R230). -/
def setUp (s : State) (k : Key) : State := s.setKey k false

/-- EX9E: KEY_INDEX_OOB if V[X] > 15, else skip if that key is down (R232). -/
def execSkp (x : Reg) (s : State) : Result State :=
  match keyOf (s.reg x) with
  | none => raise (.keyIndexOob (s.reg x) s.faultPc)
  | some k => .next (skipIf (isDown s k) s)

/-- EXA1: KEY_INDEX_OOB if V[X] > 15, else skip if that key is not down (R233). -/
def execSknp (x : Reg) (s : State) : Result State :=
  match keyOf (s.reg x) with
  | none => raise (.keyIndexOob (s.reg x) s.faultPc)
  | some k => .next (skipIf (!isDown s k) s)

/-- FX0A: `mode <- WaitingKey(X)`; a key already down does not end the wait (R234). -/
def execLdVxK (x : Reg) (s : State) : Result State :=
  .next (s.setMode (.waitingKey x))

/-- The host's key map: 16 external identifiers, the position being the virtual key (R231). It is host configuration,
no state of the core (R285; log 7). -/
structure KeyMap where
  ids : Vector Nat 16
  deriving DecidableEq, Repr

namespace KeyMap

/-- `setMap(ids)` (R231). -/
def setMap (_m : KeyMap) (ids : Vector Nat 16) : KeyMap := { ids := ids }

/-- The scan of `mapKey` over the identifiers from position `k` on. -/
def scan (e : Nat) : List Nat → Nat → Option Nat
  | [], _ => none
  | id :: rest, k => if id = e then some k else scan e rest (k + 1)

/-- `mapKey(e)`: a linear scan whose first match wins; none is NotFound (R231). -/
def mapKey (m : KeyMap) (e : Nat) : Option Key :=
  (scan e m.ids.toList 0).bind fun k => if h : k < Config.numKeys then some ⟨k, h⟩ else none

/-- The default key map, whose contents the spec does not give (R10, D36). -/
def default : KeyMap := { ids := Config.defaultKeyMap }

end KeyMap

end Sys2Proof.Machine
end

