-- ==== Sys2Proof/Machine/Timers.lean ====
section
/-! DEFINITION. The timer registers (spec/45_timers.md R250 to R252) and their decay, a host operation
(spec/60_exceptions.md R275). -/

namespace Sys2Proof.Machine

/-- FX07: `V[X] <- DT` (R250). -/
def execLdVxDt (x : Reg) (s : State) : Result State :=
  .next (s.setReg x s.DT)

/-- FX15: `DT <- V[X]` (R251). -/
def execLdDtVx (x : Reg) (s : State) : Result State :=
  .next (s.setDT (s.reg x))

/-- FX18: `ST <- V[X]` (R252). -/
def execLdStVx (x : Reg) (s : State) : Result State :=
  .next (s.setST (s.reg x))

/-- One count down, saturating at zero (R41, R275). -/
def countDown (b : Byte) : Byte := if b = 0 then 0 else b - 1

/-- `Decay()`: both timers in the same call (R275). -/
def decay (s : State) : State := (s.setDT (countDown s.DT)).setST (countDown s.ST)

end Sys2Proof.Machine
end

