-- ==== Sys2Proof/Machine/Unrecognised.lean ====
section
/-! DEFINITION. The unrecognised words (spec/30_encoding.md R100, R101). -/

namespace Sys2Proof.Machine

/-- `UNRECOGNISED(w)`: a no-op under policy Ignore, since pc is already advanced; UNKNOWN_OPCODE under policy Fault
(R101). -/
def unrecognised (w : Word) (s : State) : Result State :=
  match s.cfg.policy with
  | .ignore => .next s
  | .fault => raise (.unknownOpcode w s.faultPc)

/-- A word of class U0 (R100, R101). -/
def execUnrecU0 (nnn : Addr12) (s : State) : Result State :=
  unrecognised (encode (.unrecU0 nnn)) s

/-- A word of class U8 (R100, R101). -/
def execUnrecU8 (x y : Reg) (n : BitVec 4) (s : State) : Result State :=
  unrecognised (encode (.unrecU8 x y n)) s

/-- A word of class UE (R100, R101). -/
def execUnrecUE (x : Reg) (nn : Byte) (s : State) : Result State :=
  unrecognised (encode (.unrecUE x nn)) s

/-- A word of class UF (R100, R101). -/
def execUnrecUF (x : Reg) (nn : Byte) (s : State) : Result State :=
  unrecognised (encode (.unrecUF x nn)) s

end Sys2Proof.Machine
end

