-- ==== Sys2Proof/Machine/Step.lean ====
section
/-! DEFINITION. One step, the host's single-step operation (spec/30_encoding.md R90), and placing an instruction where it
fetches. -/

namespace Sys2Proof.Machine

/-- `Step()` (R90): a halted machine has no step (R263); a waiting one changes nothing (R236); a running one fetches,
advances pc by 2, decodes and executes. -/
def step (s : State) : Host.Outcome State Fault Refusal :=
  match s.mode with
  | .halted _ => .refused .haltedMachine
  | .waitingKey _ => .next s
  | .running => andThen (fetchInsn s) fun w => exec (decodeWord w) (advance s)

/-- The state with the instruction of table word `w` placed where the next step fetches it (log 9). -/
def State.withFetchWord (s : State) (nbits w : Nat) : State := placeBytes s (tableBytes nbits w)

end Sys2Proof.Machine
end

