-- ==== Sys2Proof/Machine/HostOps.lean ====
section
/-! DEFINITION. The host interface (spec/60_exceptions.md R280 to R292): creation and load, and every transaction the host
may call afterwards. -/

namespace Sys2Proof.Machine

/-! ### Creation and load (R300, R302) -/

/-- `Create(FONT)`: everything zero, SP empty, the font in low memory, pc 0 (R300). -/
def created (cfg : Config) : State where
  V := Vector.replicate 16 0x00
  I := 0x0000
  pc := 0x0000
  SP := 0xFF
  stack := Vector.replicate 16 0x0000
  DT := 0x00
  ST := 0x00
  keys := Vector.replicate 16 false
  fb := Grid.blank
  mem := []
  mode := .running
  cfg := cfg
  draws := 0

/-- `Load(image)`: IMAGE_TOO_LARGE above 3584 bytes, else the image verbatim at LOAD_OFFSET and pc there (R302). -/
def load (s : State) (image : List Byte) : Result State :=
  if image.length > Config.memSize - Config.loadOffset then raise (.imageTooLarge image.length)
  else .next ((s.putBytes Config.loadOffset image).setPc (BitVec.ofNat 16 Config.loadOffset))

/-- `create(FONT, image)`, the only operation before the first step (R283, R303). -/
def create (cfg : Config) (image : List Byte) : Result State := load (created cfg) image

/-! ### Transactions (R281 to R287) -/

/-- A call of the host into a created machine. Key indices are 0 to 15 by their type: no move exists for others (R284,
log 10). -/
inductive HostOp
  /-- `step()` (R281). -/
  | step
  /-- `decay()` (R282). -/
  | decay
  /-- `setDown(k)` (R284). -/
  | setDown (k : Key)
  /-- `setUp(k)` (R284). -/
  | setUp (k : Key)
  /-- `isSet(x, y)` (R286). -/
  | isSet (x y : Nat)
  /-- `soundCount()` (R287). -/
  | soundCount
  deriving DecidableEq, Repr

/-- What the host gets back from a call that did not fault. -/
inductive Response
  /-- `Ok`: the step executed an instruction (R281). -/
  | ok
  /-- `Waiting`: the step found the engine parked in FX0A (R236, R281). -/
  | waiting
  /-- The call returns nothing. -/
  | done
  /-- The pixel of isSet (R202). -/
  | pixel (on : Bool)
  /-- The count of soundCount (R287). -/
  | count (n : Byte)
  deriving DecidableEq, Repr

/-- The status `step` returns from a state (R281, R236). -/
def stepStatus (s : State) : Response :=
  match s.mode with
  | .waitingKey _ => .waiting
  | .running => .ok
  | .halted _ => .ok

/-- A call on a machine that is not halted. -/
def liveCall (op : HostOp) (s : State) : Result (State × Response) :=
  match op with
  | .step => andThen (step s) fun t => .next (t, stepStatus s)
  | .decay => .next (Sys2Proof.Machine.decay s, .done)
  | .setDown k => .next (Sys2Proof.Machine.setDown s k, .done)
  | .setUp k => .next (Sys2Proof.Machine.setUp s k, .done)
  | .isSet x y => andThen (Sys2Proof.Machine.isSet s x y) fun b => .next (s, .pixel b)
  | .soundCount => .next (s, .count s.ST)

/-- One transaction of the host. On a halted machine no operation has a defined effect (R263; log 2). -/
def hostCall (op : HostOp) (s : State) : Result (State × Response) :=
  match s.mode with
  | .halted _ => .refused .haltedMachine
  | .running => liveCall op s
  | .waitingKey _ => liveCall op s

/-- Any sequence of transactions, in the order the host issues them (R280). DESIGN CHOICE (log 13): the sequence may begin
right after creation with any operation, so a decay, a key event or a query may come before the first step; safe. -/
def runCalls : List HostOp → State → Result State
  | [], s => .next s
  | op :: rest, s => andThen (hostCall op s) fun p => runCalls rest p.1

/-- The state that an answer leaves, faults included: a fault halts the machine with its record and leaves the same
configuration and otherwise any state at all (R262; log 1). A refused call leaves none. -/
def Settles (cfg : Config) (r : Result State) (s' : State) : Prop :=
  match r with
  | .next t => s' = t
  | .fault f => ∃ leftover : State, leftover.cfg = cfg ∧ s' = haltedState f leftover
  | .refused _ => False

/-- `s'` is a state after the transaction `op` in `s` (R280). -/
def Transaction (op : HostOp) (s s' : State) : Prop :=
  Settles s.cfg (andThen (hostCall op s) fun p => .next p.1) s'

/-- `s'` is a state after creation and load: with an image too large it is Halted and never steps (R283, R302). -/
def CreatesTo (cfg : Config) (image : List Byte) (s' : State) : Prop :=
  Settles cfg (create cfg image) s'

/-- The call that the host makes for an external key-down event: none if mapKey does not find the identifier (R284). -/
def keyDownCall (m : KeyMap) (e : Nat) : Option HostOp := (m.mapKey e).map .setDown

/-- The call that the host makes for an external key-up event (R284). -/
def keyUpCall (m : KeyMap) (e : Nat) : Option HostOp := (m.mapKey e).map .setUp

/-! ### The record of a fault (R260, R261) -/

/-- The cause code of a fault (R260). -/
def Fault.code : Fault → Nat
  | .fetchOob _ => 1
  | .memReadOob _ _ => 2
  | .memWriteOob _ _ => 3
  | .stackOverflow _ _ => 4
  | .stackUnderflow _ => 5
  | .imageTooLarge _ => 6
  | .pixelOob _ _ => 7
  | .keyIndexOob _ _ => 8
  | .unknownOpcode _ _ => 9

/-- The info of a fault, one number or, for PIXEL_OOB, two (R260). -/
def Fault.info : Fault → List Nat
  | .fetchOob pc => [pc.toNat]
  | .memReadOob addr _ => [addr]
  | .memWriteOob addr _ => [addr]
  | .stackOverflow ret _ => [ret.toNat]
  | .stackUnderflow _ => [0]
  | .imageTooLarge len => [len]
  | .pixelOob x y => [x, y]
  | .keyIndexOob k _ => [k.toNat]
  | .unknownOpcode w _ => [w.toNat]

/-- `fault_pc`, recorded by a fault raised during a step (R261). -/
def Fault.faultPc : Fault → Option Word
  | .fetchOob pc => some pc
  | .memReadOob _ a => some a
  | .memWriteOob _ a => some a
  | .stackOverflow _ a => some a
  | .stackUnderflow a => some a
  | .imageTooLarge _ => none
  | .pixelOob _ _ => none
  | .keyIndexOob _ a => some a
  | .unknownOpcode _ a => some a

end Sys2Proof.Machine
end

