-- ==== Sys2Proof/Safety.lean ====
section
/-! DEFINITION. The terms in which claims speak: what an operation leaves unchanged, the states the machine can be in, safe
runs and the end of a run. -/

namespace Sys2Proof.Machine

/-! ### Frames -/

/-- The kinds of state of the machine (`State`). -/
inductive Part
  | V | I | pc | SP | stack | DT | ST | keys | fb | mem | mode | cfg | draws
  deriving DecidableEq, Repr

/-- Two states agree on one kind of state: registers register by register, memory byte by byte at every address. -/
def Part.same : Part → State → State → Prop
  | .V, s, t => ∀ r : Reg, t.reg r = s.reg r
  | .I, s, t => t.I = s.I
  | .pc, s, t => t.pc = s.pc
  | .SP, s, t => t.SP = s.SP
  | .stack, s, t => t.stack = s.stack
  | .DT, s, t => t.DT = s.DT
  | .ST, s, t => t.ST = s.ST
  | .keys, s, t => t.keys = s.keys
  | .fb, s, t => t.fb = s.fb
  | .mem, s, t => ∀ a : Nat, t.byteAt a = s.byteAt a
  | .mode, s, t => t.mode = s.mode
  | .cfg, s, t => t.cfg = s.cfg
  | .draws, s, t => t.draws = s.draws

/-- Every kind of state outside the list is unchanged from `s` to `t`. -/
def Keeps (changed : List Part) (s t : State) : Prop := ∀ p : Part, p ∉ changed → p.same s t

/-- Every general register outside the list is unchanged from `s` to `t`. -/
def KeepsRegs (changed : List Reg) (s t : State) : Prop := ∀ r : Reg, r ∉ changed → t.reg r = s.reg r

/-- Every byte of memory outside `[lo, lo + len)` is unchanged from `s` to `t`. -/
def KeepsBytes (lo len : Nat) (s t : State) : Prop :=
  ∀ a : Nat, (a < lo ∨ lo + len ≤ a) → t.byteAt a = s.byteAt a

/-! ### The states a run can be in -/

/-- The only legal values of SP are 0xFF and 0 to 15 (R38). -/
def State.legalSP (s : State) : Prop := s.SP = 0xFF ∨ s.SP.toNat < Config.stackDepth

/-- What every state that the machine reaches satisfies: SP is legal (R38), memory has its canonical form (log 8), no
rule has produced a pc above 0x10FE (R35), and every slot holds 0 or the address after a fetched word, at most 0x1000. -/
structure State.Inv (s : State) : Prop where
  spLegal : s.legalSP
  memWf : Memory.wf s.cfg.font s.mem = true
  pcBound : s.pc.toNat ≤ 0x10FE
  slotBound : ∀ k : Fin 16, (s.stack[k.val]).toNat ≤ 0x1000

/-! ### Runs -/

/-- A run of host transactions is safe when none faults and none is refused. -/
def SafeRun (ops : List HostOp) (s : State) : Prop := ∃ t : State, runCalls ops s = .next t

/-- The normal end of a run by the convention of claims: Running, with a word `1NNN` at pc whose NNN is pc (R290). -/
def SelfJump (s : State) : Prop :=
  s.mode = .running ∧ ∃ nnn : Addr12, fetchInsn s = .next (formatA 0x1 nnn) ∧ absolute nnn = s.pc

/-! ### Second descriptions, for claims -/

/-- Push the addresses of a list in order (R39). -/
def pushAll : List Word → State → Result State
  | [], s => .next s
  | a :: rest, s => andThen (push s a) fun t => pushAll rest t

/-- Pop `n` times and answer what came out, in order (R39). -/
def popAll : Nat → State → Result (List Word)
  | 0, _ => .next []
  | n + 1, s => andThen (pop s) fun p => andThen (popAll n p.2) fun rest => .next (p.1 :: rest)

/-- Whether a sprite drawn at (x, y) has a 1 bit over the pixel at row `r`, column `c`: some row `i` and bit-column `j`
of it wrap to that pixel (R203). -/
def spriteCovers (x y : Nat) (sprite : List Byte) (r : Fin 32) (c : Fin 64) : Bool :=
  (List.range sprite.length).any fun i => (List.range 8).any fun j =>
    (sprite.getD i 0).getLsbD (7 - j) && decide ((y + i) % 32 = r.val) && decide ((x + j) % 64 = c.val)

/-- A skip's pc: `a + 4` when its condition holds, else `a + 2` (R91). -/
def pcAfterSkip (a : Word) (c : Bool) : Word := if c then a + 4 else a + 2

/-- Where pc stands after a step that fetched instruction `i` at address `a` in state `s` and did not fault: jumps, calls
and returns exactly at their target, skips at `a + 4` or `a + 2`, everything else at `a + 2` (R34, R91). -/
def pcAfter (a : Word) (s : State) : Instr → Word
  | .jp nnn => nnn.setWidth 16
  | .call nnn => nnn.setWidth 16
  | .jpV0 nnn => BitVec.ofNat 16 (nnn.toNat + (s.reg 0).toNat)
  | .ret => s.stack.toList.getD s.SP.toNat 0
  | .seImm x nn => pcAfterSkip a (s.reg x == nn)
  | .sneImm x nn => pcAfterSkip a (s.reg x != nn)
  | .seReg x y => pcAfterSkip a (s.reg x == s.reg y)
  | .sneReg x y => pcAfterSkip a (s.reg x != s.reg y)
  | .skp x => pcAfterSkip a (s.keys.toList.getD (s.reg x).toNat false)
  | .sknp x => pcAfterSkip a (!s.keys.toList.getD (s.reg x).toNat false)
  | _ => a + 2

/-- The same state with another call stack. -/
def State.withCallStack (s : State) (sp : Byte) (stack : Vector Word 16) : State :=
  { s with SP := sp, stack := stack }

/-- Change the state that an operation answers, and leave a fault or a refusal as it is. -/
def mapState (f : State → State) (r : Result State) : Result State := andThen r fun t => .next (f t)

end Sys2Proof.Machine

namespace Sys2Proof

/-! ### Classes of instructions, for rules about all of them -/

/-- The instructions that write VF as a flag (R31). -/
def Instr.writesFlag : Instr → Bool
  | .addReg _ _ => true
  | .sub _ _ => true
  | .shr _ _ => true
  | .subn _ _ => true
  | .shl _ _ => true
  | .drw _ _ _ => true
  | _ => false

/-- Whether an instruction has V[r] among the destinations that its execution writes by R32's table, flags apart;
FX0A's destination is written later, by the key event (R235). -/
def Instr.hasDest (r : Reg) : Instr → Bool
  | .ldImm x _ => x == r
  | .addImm x _ => x == r
  | .ldReg x _ => x == r
  | .orReg x _ => x == r
  | .andReg x _ => x == r
  | .xorReg x _ => x == r
  | .addReg x _ => x == r
  | .sub x _ => x == r
  | .shr x _ => x == r
  | .subn x _ => x == r
  | .shl x _ => x == r
  | .rnd x _ => x == r
  | .ldVxDt x => x == r
  | .ldVxMem x => decide (r ≤ x)
  | _ => false

end Sys2Proof
end

