-- ==== Sys2Proof/Certificates/Slice0/Obligations.lean ====
section
/-! DEFINITION. The statements for the provers. Each docstring names the rule of spec/ that its statement formalises; a
statement that rests on a decision or an inference of the spec, or on a choice of the model, says so. In `exec i s` the
state `s` is that of the execute phase: its pc is already the fetch address plus 2 (R91). -/

open Sys2Proof Sys2Proof.Machine

/-! ### Encoding -/

/-- Words written out from the spec's encodings decode to the instructions they stand for (R96, R97). A check of fixed
values. -/
def Obligations.DecodesWordsOfTheSpec : Prop :=
  decodeWord 0x00E0 = .cls ∧ decodeWord 0x00EE = .ret ∧ decodeWord 0x1234 = .jp 0x234 ∧
  decodeWord 0x2400 = .call 0x400 ∧ decodeWord 0x3342 = .seImm 3 0x42 ∧ decodeWord 0x5121 = .seReg 1 2 ∧
  decodeWord 0x8124 = .addReg 1 2 ∧ decodeWord 0xA2F0 = .ldI 0x2F0 ∧ decodeWord 0xD125 = .drw 1 2 5 ∧
  decodeWord 0xE59E = .skp 5 ∧ decodeWord 0xF30A = .ldVxK 3 ∧ decodeWord 0xF265 = .ldVxMem 2 ∧
  decodeWord 0x8008 = .unrecU8 0 0 0x8 ∧ decodeWord 0x0000 = .unrecU0 0x000

/-- Decoding the word of any well-formed instruction gives it back, with every operand at every value (R95, R97). -/
def Obligations.DecodeOfEncodeGivesBack : Prop :=
  ∀ i : Instr, i.wellFormed = true → decodeWord (encode i) = i

/-- Every word decodes to a well-formed instruction whose word is the same word, but for the low nibble of families 5
and 9, which is not tested (R97, R98; the spec's decision D8). -/
def Obligations.EncodeOfDecodeGivesWord : Prop :=
  ∀ w : Word, (decodeWord w).wellFormed = true ∧ encode (decodeWord w) = canonicalWord w

/-- Every instruction is exactly 2 bytes, the byte at the lower address being bits 15:8: the word that a step fetches
is made of the bytes at pc and pc + 1 and is what the decoder reads from them, and the decoder takes 2 bytes of any
longer list (R92). The last two clauses, that a list shorter than 2 bytes is rejected as truncated, are the model's own
(log 14). -/
def Obligations.DecoderTakesTwoBytes : Prop :=
  (∀ (s : State) (w : Word), fetchInsn s = .next w →
    w.toNat = 256 * (s.byteAt s.pc.toNat).toNat + (s.byteAt (s.pc.toNat + 1)).toNat ∧
    decodeBytes [s.byteAt s.pc.toNat, s.byteAt (s.pc.toNat + 1)] = .ok (decodeWord w, [])) ∧
  (∀ (hi lo : Byte) (rest : List Byte), ∃ w : Word, w.toNat = 256 * hi.toNat + lo.toNat ∧
    decodeBytes (hi :: lo :: rest) = .ok (decodeWord w, rest)) ∧
  (∀ b : Byte, decodeBytes [b] = .error .truncated) ∧ decodeBytes [] = .error .truncated

/-- Which words are in the four unrecognised classes (R100, an inference of the spec from R97 to R99). -/
def Obligations.UnrecognisedClassesAreTheirWords : Prop :=
  ∀ w : Word,
    ((∃ nnn, decodeWord w = .unrecU0 nnn) ↔ w.toNat < 0x1000 ∧ w ≠ 0x00E0 ∧ w ≠ 0x00EE) ∧
    ((∃ x y n, decodeWord w = .unrecU8 x y n) ↔
      w.toNat / 0x1000 = 0x8 ∧ w.toNat % 0x10 ∈ [0x8, 0x9, 0xA, 0xB, 0xC, 0xD, 0xF]) ∧
    ((∃ x nn, decodeWord w = .unrecUE x nn) ↔ w.toNat / 0x1000 = 0xE ∧ w.toNat % 0x100 ∉ [0x9E, 0xA1]) ∧
    ((∃ x nn, decodeWord w = .unrecUF x nn) ↔
      w.toNat / 0x1000 = 0xF ∧ w.toNat % 0x100 ∉ [0x07, 0x0A, 0x15, 0x18, 0x1E, 0x29, 0x33, 0x55, 0x65])

/-! ### The step -/

/-- One step (R90; the spec's decision D3 for the halted state, and log 2 for its refusal): a running machine whose two
bytes at pc decode to `i` runs `i` on the state with pc advanced by 2 and returns Ok; if the fetch is out of bounds it
faults; a waiting machine changes nothing and returns Waiting; a halted one has no step. -/
def Obligations.StepRunsTheDecodedInstruction : Prop :=
  ∀ s : State,
    (s.mode = .running → s.pc.toNat + 1 < 4096 →
      ∀ i : Instr, decodeBytes [s.byteAt s.pc.toNat, s.byteAt (s.pc.toNat + 1)] = .ok (i, []) →
        step s = exec i (s.setPc (s.pc + 2)) ∧
        ∀ t, step s = .next t → hostCall .step s = .next (t, .ok)) ∧
    (s.mode = .running → 4096 ≤ s.pc.toNat + 1 → step s = .fault (.fetchOob s.pc)) ∧
    (∀ x, s.mode = .waitingKey x → step s = .next s ∧ hostCall .step s = .next (s, .waiting)) ∧
    (∀ f, s.mode = .halted f → step s = .refused .haltedMachine ∧ hostCall .step s = .refused .haltedMachine)

/-- The fetch primitive: the big-endian word at any address whose two bytes are in memory, odd addresses included, and
FETCH_OOB with the address otherwise (R64). -/
def Obligations.FetchIsBigEndianAndBoundsChecked : Prop :=
  ∀ s : State,
    (s.pc.toNat + 1 < 4096 → ∃ w : Word, fetchInsn s = .next w ∧
      w.toNat = (s.byteAt s.pc.toNat).toNat * 256 + (s.byteAt (s.pc.toNat + 1)).toNat) ∧
    (4096 ≤ s.pc.toNat + 1 → fetchInsn s = .fault (.fetchOob s.pc))

/-- The data access primitives (R62, R63): an access outside `[0, 4096)` faults with its address and no state; a write
inside changes that one byte and nothing else, and keeps the canonical form of memory. The fault's address of the word
(log 3) and the canonical form (log 8) are the model's. -/
def Obligations.DataAccessIsBoundsChecked : Prop :=
  ∀ (s : State) (a : Nat) (b : Byte),
    (a < 4096 → memRead s a = .next (s.byteAt a)) ∧
    (4096 ≤ a → memRead s a = .fault (.memReadOob a (s.pc - 2))) ∧
    (4096 ≤ a → memWrite s a b = .fault (.memWriteOob a (s.pc - 2))) ∧
    (Memory.wf s.cfg.font s.mem = true → a < 4096 → ∃ t, memWrite s a b = .next t ∧ t.byteAt a = b ∧
      KeepsBytes a 1 s t ∧ Keeps [.mem] s t ∧ Memory.wf t.cfg.font t.mem = true)

/-- Where pc stands after any step, by the class of the instruction; the default advance never wraps; FX0A parks the
engine, and a step of a parked engine leaves pc alone (R34, R91). -/
def Obligations.PcAfterEveryStep : Prop :=
  ∀ (s t : State), step s = .next t →
    (s.mode = .running → ∀ w : Word, fetchInsn s = .next w →
      t.pc = pcAfter s.pc s (decodeWord w) ∧ s.pc.toNat ≤ 0xFFE ∧
        ∀ x, decodeWord w = .ldVxK x → t.mode = .waitingKey x) ∧
    (∀ x, s.mode = .waitingKey x → t.pc = s.pc)

/-- A self-jump, the normal end of a run for claims, is left unchanged by every step (R122; the spec's convention R290,
decision D31). -/
def Obligations.SelfJumpChangesNothing : Prop :=
  ∀ s : State, SelfJump s → step s = .next s

/-! ### Register loads, ALU and random -/

/-- 6XNN and 8XY0 (R151, R153): encoding, result, no flag, nothing else. -/
def Obligations.LoadImmediateAndCopy : Prop :=
  ∀ (s : State) (x y : Reg) (nn : Byte),
    (decodeWord (formatRI 0x6 x nn) = .ldImm x nn ∧
      ∃ t, exec (.ldImm x nn) s = .next t ∧ t.reg x = nn ∧ KeepsRegs [x] s t ∧ Keeps [.V] s t) ∧
    (decodeWord (formatRR 0x8 x y 0x0) = .ldReg x y ∧
      ∃ t, exec (.ldReg x y) s = .next t ∧ t.reg x = s.reg y ∧ KeepsRegs [x] s t ∧ Keeps [.V] s t)

/-- 7XNN (R152; the spec's decision D7): the sum modulo 256, and VF not written unless it is the destination. -/
def Obligations.AddImmediateWritesNoFlag : Prop :=
  ∀ (s : State) (x : Reg) (nn : Byte),
    ∃ t, exec (.addImm x nn) s = .next t ∧ (t.reg x).toNat = ((s.reg x).toNat + nn.toNat) % 256 ∧
      KeepsRegs [x] s t ∧ Keeps [.V] s t

/-- 8XY1, 8XY2, 8XY3 (R154 to R156; the spec's decision D6): bit by bit, and VF not written unless it is the
destination. -/
def Obligations.BitwiseLogicWritesNoFlag : Prop :=
  ∀ (s : State) (x y : Reg),
    (∃ t, exec (.orReg x y) s = .next t ∧ KeepsRegs [x] s t ∧ Keeps [.V] s t ∧
      ∀ k : Nat, (t.reg x).getLsbD k = ((s.reg x).getLsbD k || (s.reg y).getLsbD k)) ∧
    (∃ t, exec (.andReg x y) s = .next t ∧ KeepsRegs [x] s t ∧ Keeps [.V] s t ∧
      ∀ k : Nat, (t.reg x).getLsbD k = ((s.reg x).getLsbD k && (s.reg y).getLsbD k)) ∧
    (∃ t, exec (.xorReg x y) s = .next t ∧ KeepsRegs [x] s t ∧ Keeps [.V] s t ∧
      ∀ k : Nat, (t.reg x).getLsbD k = ((s.reg x).getLsbD k != (s.reg y).getLsbD k))

/-- 8XY4 (R157; with X = F the flag stays, R150, the spec's decision D5): VF = 1 iff the sum exceeds 255. -/
def Obligations.AddRegistersSetsCarry : Prop :=
  ∀ (s : State) (x y : Reg),
    ∃ t, exec (.addReg x y) s = .next t ∧ KeepsRegs [x, 15] s t ∧ Keeps [.V] s t ∧
      (x ≠ 15 → (t.reg x).toNat = ((s.reg x).toNat + (s.reg y).toNat) % 256) ∧
      t.reg 15 = (if (s.reg x).toNat + (s.reg y).toNat > 255 then 1 else 0)

/-- 8XY5 and 8XY7 (R158, R160; D5 for X = F): the difference modulo 256; VF = 1 iff the minuend is strictly greater.
The two flags on the same operands add up to 1 when the operands differ and to 0 when they are equal (R165, an
inference of the spec). -/
def Obligations.SubtractionsSetStrictFlag : Prop :=
  ∀ (s : State) (x y : Reg),
    (∃ t, exec (.sub x y) s = .next t ∧ KeepsRegs [x, 15] s t ∧ Keeps [.V] s t ∧
      (x ≠ 15 → (t.reg x).toNat = ((s.reg x).toNat + 256 - (s.reg y).toNat) % 256) ∧
      t.reg 15 = (if (s.reg x).toNat > (s.reg y).toNat then 1 else 0)) ∧
    (∃ t, exec (.subn x y) s = .next t ∧ KeepsRegs [x, 15] s t ∧ Keeps [.V] s t ∧
      (x ≠ 15 → (t.reg x).toNat = ((s.reg y).toNat + 256 - (s.reg x).toNat) % 256) ∧
      t.reg 15 = (if (s.reg y).toNat > (s.reg x).toNat then 1 else 0)) ∧
    (∀ t u, exec (.sub x y) s = .next t → exec (.subn x y) s = .next u →
      (t.reg 15).toNat + (u.reg 15).toNat = if s.reg x = s.reg y then 0 else 1)

/-- 8XY6 and 8XYE (R159, R161; D5 for X = F): VX halved or doubled, VF the bit shifted out, and VY not read: the
outcome is the same for every Y and every value of VY. -/
def Obligations.ShiftsIgnoreVy : Prop :=
  ∀ (s : State) (x y : Reg),
    (∃ t, exec (.shr x y) s = .next t ∧ KeepsRegs [x, 15] s t ∧ Keeps [.V] s t ∧
      (x ≠ 15 → (t.reg x).toNat = (s.reg x).toNat / 2) ∧ (t.reg 15).toNat = (s.reg x).toNat % 2 ∧
      ∀ z, exec (.shr x z) s = .next t) ∧
    (∃ t, exec (.shl x y) s = .next t ∧ KeepsRegs [x, 15] s t ∧ Keeps [.V] s t ∧
      (x ≠ 15 → (t.reg x).toNat = 2 * (s.reg x).toNat % 256) ∧ (t.reg 15).toNat = (s.reg x).toNat / 128 ∧
      ∀ z, exec (.shl x z) s = .next t)

/-- CXNN (R162; the spec's decision D20): VX is a free byte masked by NN. The free byte is `Config.draw` of the model's
counter (log 6), which nothing evaluates: the statement is true of any draw. -/
def Obligations.RandomByteIsMasked : Prop :=
  ∀ (s : State) (x : Reg) (nn : Byte),
    ∃ t, exec (.rnd x nn) s = .next t ∧ t.reg x = Config.draw s.draws &&& nn ∧ t.draws = s.draws + 1 ∧
      (∀ k, nn.getLsbD k = false → (t.reg x).getLsbD k = false) ∧ KeepsRegs [x] s t ∧ Keeps [.V, .draws] s t

/-! ### Control flow -/

/-- 00EE (R121; the spec's decision D28 for the empty SP, log 3 for the address in the fault): pc is the top slot, SP
is lowered, nothing else changes; with no call outstanding it underflows. -/
def Obligations.ReturnPopsTheTopSlot : Prop :=
  decodeWord 0x00EE = .ret ∧
  ∀ s : State,
    (∀ h : s.SP.toNat < 16, ∃ t, exec .ret s = .next t ∧ t.pc = s.stack[s.SP.toNat] ∧
      t.SP = (if s.SP = 0 then 0xFF else s.SP - 1) ∧ Keeps [.pc, .SP] s t) ∧
    (s.SP = 0xFF → exec .ret s = .fault (.stackUnderflow (s.pc - 2)))

/-- 1NNN (R122): pc is NNN, whatever NNN is, and nothing else changes; a target of 0xFFF faults at the next fetch; no
host operation but a step changes pc. -/
def Obligations.JumpSetsPc : Prop :=
  ∀ (s : State) (nnn : Addr12), decodeWord (formatA 0x1 nnn) = .jp nnn ∧
    ∃ t, exec (.jp nnn) s = .next t ∧ t.pc.toNat = nnn.toNat ∧ Keeps [.pc] s t ∧
      (s.mode = .running → nnn = 0xFFF → step t = .fault (.fetchOob 0xFFF)) ∧
      ∀ (op : HostOp) (u : State) (r : Response), op ≠ .step → hostCall op t = .next (u, r) → u.pc = t.pc

/-- BNNN (R124; the spec's decision D15): pc is NNN plus V0, which cannot wrap, and nothing else changes. -/
def Obligations.JumpOffsetAddsV0 : Prop :=
  ∀ (s : State) (nnn : Addr12),
    ∃ t, exec (.jpV0 nnn) s = .next t ∧ t.pc.toNat = nnn.toNat + (s.reg 0).toNat ∧ Keeps [.pc] s t

/-- 2NNN (R123; the spec's decision D28, log 3 for the address in the fault): the advanced pc goes into the next slot
and pc is NNN; nothing else changes; with 16 calls outstanding it overflows. -/
def Obligations.CallPushesTheAdvancedPc : Prop :=
  ∀ (s : State) (nnn : Addr12), decodeWord (formatA 0x2 nnn) = .call nnn ∧
    (s.SP = 0xFF ∨ s.SP.toNat < 15 → ∃ t, exec (.call nnn) s = .next t ∧ t.pc.toNat = nnn.toNat ∧
      t.SP = s.SP + 1 ∧
      (∀ k : Fin 16, t.stack[k.val] = if k.val = (s.SP + 1).toNat then s.pc else s.stack[k.val]) ∧
      Keeps [.pc, .SP, .stack] s t) ∧
    (s.SP.toNat = 15 → exec (.call nnn) s = .fault (.stackOverflow s.pc (s.pc - 2)))

/-- A call and then a return come back to the advanced pc with SP as before, and change nothing else but the popped
slot, which keeps the pushed address (R39, R121, R123; worked example W6; the spec's decision D28). -/
def Obligations.CallThenReturnComesBack : Prop :=
  ∀ (s : State) (nnn : Addr12), s.SP = 0xFF ∨ s.SP.toNat < 15 →
    ∃ t u, exec (.call nnn) s = .next t ∧ exec .ret t = .next u ∧ u.pc = s.pc ∧ Keeps [.stack] s u ∧
      ∀ k : Fin 16, u.stack[k.val] = if k.val = (s.SP + 1).toNat then s.pc else s.stack[k.val]

/-- From an empty stack exactly 16 pushes fit, they come out in reverse, and the 17th overflows (R40, an inference of
the spec from R39; log 3 for the address in the fault). -/
def Obligations.StackHoldsSixteenAddresses : Prop :=
  ∀ (s : State) (as : List Word), s.SP = 0xFF →
    (as.length ≤ 16 → ∃ t, pushAll as s = .next t ∧ popAll as.length t = .next as.reverse) ∧
    (∀ h : 16 < as.length, pushAll as s = .fault (.stackOverflow as[16] (s.pc - 2)))

/-- 3XNN and 4XNN (R125, R126): 2 more on pc exactly when the condition holds, and nothing else changes; a skip past
0xFFE faults at the next fetch. -/
def Obligations.SkipsOnImmediate : Prop :=
  ∀ (s : State) (x : Reg) (nn : Byte),
    (decodeWord (formatRI 0x3 x nn) = .seImm x nn ∧ ∃ t, exec (.seImm x nn) s = .next t ∧
      t.pc = (if s.reg x = nn then s.pc + 2 else s.pc) ∧ Keeps [.pc] s t ∧
      (s.mode = .running → s.reg x = nn → 0xFFE < (s.pc + 2).toNat → step t = .fault (.fetchOob (s.pc + 2)))) ∧
    (decodeWord (formatRI 0x4 x nn) = .sneImm x nn ∧ ∃ t, exec (.sneImm x nn) s = .next t ∧
      t.pc = (if s.reg x = nn then s.pc else s.pc + 2) ∧ Keeps [.pc] s t)

/-- 5XY0 and 9XY0 (R127, R128; the spec's decision D8): every low nibble is the same instruction; 2 more on pc exactly
when the condition holds, and nothing else changes. -/
def Obligations.SkipsOnRegisters : Prop :=
  ∀ (s : State) (x y : Reg) (n : BitVec 4),
    (decodeWord (formatRR 0x5 x y n) = .seReg x y ∧ ∃ t, exec (.seReg x y) s = .next t ∧
      t.pc = (if s.reg x = s.reg y then s.pc + 2 else s.pc) ∧ Keeps [.pc] s t) ∧
    (decodeWord (formatRR 0x9 x y n) = .sneReg x y ∧ ∃ t, exec (.sneReg x y) s = .next t ∧
      t.pc = (if s.reg x = s.reg y then s.pc else s.pc + 2) ∧ Keeps [.pc] s t)

/-! ### Unrecognised words -/

/-- An unrecognised word (R101; the spec's decision D21; log 3 for the address): under Ignore it changes nothing at
all, under Fault it raises UNKNOWN_OPCODE with the word and the address it was fetched from. -/
def Obligations.UnrecognisedWordsIgnoredOrFault : Prop :=
  ∀ (s : State) (i : Instr),
    ((∃ nnn, i = .unrecU0 nnn) ∨ (∃ x y n, i = .unrecU8 x y n) ∨ (∃ x nn, i = .unrecUE x nn) ∨
      ∃ x nn, i = .unrecUF x nn) →
    (s.cfg.policy = .ignore → exec i s = .next s) ∧
    (s.cfg.policy = .fault → exec i s = .fault (.unknownOpcode (encode i) (s.pc - 2)))

/-! ### Index register and memory -/

/-- ANNN and FX29 (R180, R182): I is NNN, or five times the low nibble of VX; nothing else changes, VF included. -/
def Obligations.IndexLoadAndGlyphAddress : Prop :=
  ∀ (s : State) (nnn : Addr12) (x : Reg),
    (decodeWord (formatA 0xA nnn) = .ldI nnn ∧
      ∃ t, exec (.ldI nnn) s = .next t ∧ t.I.toNat = nnn.toNat ∧ Keeps [.I] s t) ∧
    (decodeWord (formatRI 0xF x 0x29) = .ldF x ∧
      ∃ t, exec (.ldF x) s = .next t ∧ t.I.toNat = 5 * ((s.reg x).toNat % 16) ∧ Keeps [.I] s t)

/-- FX1E (R181; the spec's decision D13): I plus VX modulo 65536, with no mask and no flag; nothing else changes. -/
def Obligations.IndexAddWritesNoFlag : Prop :=
  ∀ (s : State) (x : Reg),
    ∃ t, exec (.addI x) s = .next t ∧ t.I.toNat = (s.I.toNat + (s.reg x).toNat) % 65536 ∧ Keeps [.I] s t

/-- FX33 (R183; the spec's decision D4 for the fault, log 3 for the address in it, log 8 for the form of memory): the
three digits at I, I + 1, I + 2, which I does not wrap to reach; nothing else changes; the lowest of the three
addresses that is outside memory faults. -/
def Obligations.DecimalDigitsAreStored : Prop :=
  ∀ (s : State) (x : Reg), Memory.wf s.cfg.font s.mem = true →
    (effAddr s 0 + 3 ≤ 4096 → ∃ t, exec (.ldB x) s = .next t ∧
      (t.byteAt (effAddr s 0)).toNat = (s.reg x).toNat / 100 ∧
      (t.byteAt (effAddr s 1)).toNat = (s.reg x).toNat / 10 % 10 ∧
      (t.byteAt (effAddr s 2)).toNat = (s.reg x).toNat % 10 ∧
      KeepsBytes (effAddr s 0) 3 s t ∧ Keeps [.mem] s t) ∧
    (4096 < effAddr s 0 + 3 → exec (.ldB x) s = .fault (.memWriteOob (max (effAddr s 0) 4096) (s.pc - 2)))

/-- FX55 (R184; the spec's decisions D4 and D12; log 3 for the address in the fault, log 8 for the form of memory): V0
to VX at I, I + 1, …; nothing else changes, I included; the lowest address outside memory faults. -/
def Obligations.RegistersAreStored : Prop :=
  ∀ (s : State) (x : Reg), Memory.wf s.cfg.font s.mem = true →
    (effAddr s x.val < 4096 → ∃ t, exec (.ldMemVx x) s = .next t ∧
      (∀ k : Reg, k ≤ x → t.byteAt (effAddr s k.val) = s.reg k) ∧
      KeepsBytes (effAddr s 0) (x.val + 1) s t ∧ Keeps [.mem] s t) ∧
    (4096 ≤ effAddr s x.val →
      exec (.ldMemVx x) s = .fault (.memWriteOob (max (effAddr s 0) 4096) (s.pc - 2)))

/-- FX65 (R185; the spec's decisions D4 and D12; log 3 for the address in the fault): V0 to VX from I, I + 1, …;
nothing else changes, I and all of memory included; the lowest address outside memory faults. -/
def Obligations.RegistersAreLoaded : Prop :=
  ∀ (s : State) (x : Reg),
    (effAddr s x.val < 4096 → ∃ t, exec (.ldVxMem x) s = .next t ∧
      (∀ k : Reg, t.reg k = if k ≤ x then s.byteAt (effAddr s k.val) else s.reg k) ∧ Keeps [.V] s t) ∧
    (4096 ≤ effAddr s x.val →
      exec (.ldVxMem x) s = .fault (.memReadOob (max (effAddr s 0) 4096) (s.pc - 2)))

/-- FX55 and then FX65 from the same I, whatever the registers hold in between, bring V0 to VX back (R184, R185;
log 8 for the form of memory). -/
def Obligations.StoredRegistersComeBack : Prop :=
  ∀ (s t u : State) (x : Reg), Memory.wf s.cfg.font s.mem = true → exec (.ldMemVx x) s = .next t →
    Keeps [.V, .pc] t u →
    ∃ v, exec (.ldVxMem x) u = .next v ∧ ∀ k : Reg, k ≤ x → v.reg k = s.reg k

/-- A fetch sees the bytes that the instruction before it stored, with no barrier (R76, R311; the spec's decision D25;
log 8): after FX55 the word fetched from two of the stored bytes is made of the two registers. -/
def Obligations.NextFetchSeesTheStore : Prop :=
  ∀ (s t : State) (x j k : Reg), Memory.wf s.cfg.font s.mem = true → exec (.ldMemVx x) s = .next t →
    k.val = j.val + 1 → k ≤ x → s.pc.toNat = effAddr s j.val →
    ∃ w : Word, fetchInsn t = .next w ∧ w.toNat = 256 * (s.reg j).toNat + (s.reg k).toNat

/-! ### Display -/

/-- 00E0 (R200, R205): every pixel is off and nothing else changes. -/
def Obligations.ClearScreenTurnsAllOff : Prop :=
  decodeWord 0x00E0 = .cls ∧
  ∀ s : State, ∃ t, exec .cls s = .next t ∧ (∀ r c, Grid.pixel t.fb r c = false) ∧ Keeps [.fb] s t

/-- The XOR blit (R203): exactly the pixels under a 1 bit of the sprite are toggled, with wrapping coordinates, and the
collision result is true iff one of them was on. -/
def Obligations.DrawSpriteTogglesCoveredPixels : Prop :=
  ∀ (g : Grid) (x y : Byte) (sprite : List Byte), sprite.length ≤ 15 →
    (∀ r c, (drawSprite g x y sprite).grid.pixel r c =
      (g.pixel r c != spriteCovers x.toNat y.toNat sprite r c)) ∧
    ((drawSprite g x y sprite).collided = true ↔
      ∃ r c, spriteCovers x.toNat y.toNat sprite r c = true ∧ g.pixel r c = true)

/-- The laws of the blit (R204 (a) and (c), inferences of the spec from R203; C7, C12): a collision is reported iff
some pixel goes from on to off; drawing the same sprite again restores the framebuffer, and the second draw collides
iff the first turned a pixel on. -/
def Obligations.BlitCollisionAndSelfInverse : Prop :=
  ∀ (g : Grid) (x y : Byte) (sprite : List Byte), sprite.length ≤ 15 →
    ((drawSprite g x y sprite).collided = true ↔
      ∃ r c, g.pixel r c = true ∧ (drawSprite g x y sprite).grid.pixel r c = false) ∧
    (drawSprite (drawSprite g x y sprite).grid x y sprite).grid = g ∧
    ((drawSprite (drawSprite g x y sprite).grid x y sprite).collided = true ↔
      ∃ r c, g.pixel r c = false ∧ (drawSprite g x y sprite).grid.pixel r c = true)

/-- DXYN (R206; the spec's decision D4 for the fault, log 3 for the address in it): the N bytes at I are drawn at (VX,
VY), both read before VF is written; VF is the collision result on every execution, N = 0 included; nothing else
changes, I and all of memory included; the lowest row outside memory faults. -/
def Obligations.DrawReadsRowsAndSetsFlag : Prop :=
  ∀ (s : State) (x y : Reg) (n : Fin 16),
    (n.val = 0 ∨ effAddr s 0 + n.val ≤ 4096 → ∃ t sprite, exec (.drw x y n) s = .next t ∧
      sprite.length = n.val ∧ (∀ k, k < n.val → sprite[k]? = some (s.byteAt (effAddr s k))) ∧
      t.fb = (drawSprite s.fb (s.reg x) (s.reg y) sprite).grid ∧
      t.reg 15 = (if (drawSprite s.fb (s.reg x) (s.reg y) sprite).collided then 1 else 0) ∧
      KeepsRegs [15] s t ∧ Keeps [.V, .fb] s t) ∧
    (n.val ≠ 0 → 4096 < effAddr s 0 + n.val →
      exec (.drw x y n) s = .fault (.memReadOob (max (effAddr s 0) 4096) (s.pc - 2)))

/-- The framebuffer changes only through 00E0 and DXYN: no other instruction and no host operation but a step changes
it (R207, an inference of the spec). -/
def Obligations.FramebufferChangesOnlyByDrawing : Prop :=
  (∀ (i : Instr) (s t : State), exec i s = .next t → t.fb ≠ s.fb → i = .cls ∨ ∃ x y n, i = .drw x y n) ∧
  (∀ (op : HostOp) (s t : State) (r : Response), op ≠ .step → hostCall op s = .next (t, r) → t.fb = s.fb)

/-! ### Keyboard -/

/-- EX9E and EXA1 (R232, R233; the spec's decisions D9 and D10; log 3): with VX a key number, 2 more on pc exactly when
that key is down (or is not), and nothing else changes; otherwise KEY_INDEX_OOB. -/
def Obligations.KeySkipsTestOneKey : Prop :=
  ∀ (s : State) (x : Reg),
    (∀ h : (s.reg x).toNat < 16,
      (∃ t, exec (.skp x) s = .next t ∧ Keeps [.pc] s t ∧
        t.pc = (if s.keys[(s.reg x).toNat] then s.pc + 2 else s.pc)) ∧
      (∃ t, exec (.sknp x) s = .next t ∧ Keeps [.pc] s t ∧
        t.pc = (if s.keys[(s.reg x).toNat] then s.pc else s.pc + 2))) ∧
    (16 ≤ (s.reg x).toNat →
      exec (.skp x) s = .fault (.keyIndexOob (s.reg x) (s.pc - 2)) ∧
      exec (.sknp x) s = .fault (.keyIndexOob (s.reg x) (s.pc - 2)))

/-- FX0A (R234; the spec's decision D11): the engine parks, whatever keys are down, and nothing else changes. -/
def Obligations.KeyWaitParksTheEngine : Prop :=
  ∀ (s : State) (x : Reg),
    ∃ t, exec (.ldVxK x) s = .next t ∧ t.mode = .waitingKey x ∧ Keeps [.mode] s t

/-- setDown and setUp (R230, R235, R237; the spec's decision D11): a key-down ends a wait and latches its number;
outside a wait it only marks the key; a key-up only marks the key and ends no wait. -/
def Obligations.KeyEventsAndTheWait : Prop :=
  ∀ (s : State) (k : Key),
    (∀ x, s.mode = .waitingKey x → ∃ t, hostCall (.setDown k) s = .next (t, .done) ∧ t.mode = .running ∧
      (t.reg x).toNat = k.val ∧ KeepsRegs [x] s t ∧ Keeps [.V, .keys, .mode] s t ∧
      ∀ j : Key, t.keys[j.val] = if j = k then true else s.keys[j.val]) ∧
    (s.mode = .running → ∃ t, hostCall (.setDown k) s = .next (t, .done) ∧ Keeps [.keys] s t ∧
      ∀ j : Key, t.keys[j.val] = if j = k then true else s.keys[j.val]) ∧
    ((∀ f, s.mode ≠ .halted f) → ∃ t, hostCall (.setUp k) s = .next (t, .done) ∧ Keeps [.keys] s t ∧
      ∀ j : Key, t.keys[j.val] = if j = k then false else s.keys[j.val])

/-- Only FX0A parks the engine, and only a key-down event ends the wait (R236, R292; the spec's decisions D11 and
D30). -/
def Obligations.OnlyKeyDownEndsTheWait : Prop :=
  (∀ (i : Instr) (s t : State), exec i s = .next t → t.mode ≠ s.mode → ∃ x, i = .ldVxK x) ∧
  (∀ (op : HostOp) (s t : State) (r : Response) (x : Reg), s.mode = .waitingKey x →
    hostCall op s = .next (t, r) → (t.mode = .waitingKey x ∨ ∃ k, op = .setDown k) ∧ t.pc = s.pc)

/-- mapKey is a linear scan whose first match wins; an identifier that is not in the map is not found and produces no
call (R231, R284; the spec's decision D36). -/
def Obligations.MapKeyFindsTheFirstMatch : Prop :=
  ∀ (m : KeyMap) (e : Nat),
    (∀ k : Key, m.mapKey e = some k ↔ m.ids[k.val] = e ∧ ∀ j : Key, j < k → m.ids[j.val] ≠ e) ∧
    ((∀ j : Key, m.ids[j.val] ≠ e) → keyDownCall m e = none ∧ keyUpCall m e = none)

/-! ### Timers -/

/-- FX07, FX15, FX18 (R250 to R252): the timer is read or set as it is, and nothing else changes. -/
def Obligations.TimerRegistersReadAndSet : Prop :=
  ∀ (s : State) (x : Reg),
    (decodeWord (formatRI 0xF x 0x07) = .ldVxDt x ∧
      ∃ t, exec (.ldVxDt x) s = .next t ∧ t.reg x = s.DT ∧ KeepsRegs [x] s t ∧ Keeps [.V] s t) ∧
    (decodeWord (formatRI 0xF x 0x15) = .ldDtVx x ∧
      ∃ t, exec (.ldDtVx x) s = .next t ∧ t.DT = s.reg x ∧ Keeps [.DT] s t) ∧
    (decodeWord (formatRI 0xF x 0x18) = .ldStVx x ∧
      ∃ t, exec (.ldStVx x) s = .next t ∧ t.ST = s.reg x ∧ Keeps [.ST] s t)

/-- decay and soundCount (R275, R287; the spec's decisions D19 and D33): running or waiting, both timers count down by
one and stop at zero; soundCount answers ST and changes nothing. -/
def Obligations.DecayCountsDownToZero : Prop :=
  ∀ s : State, (∀ f, s.mode ≠ .halted f) →
    (∃ t, hostCall .decay s = .next (t, .done) ∧ t.DT.toNat = s.DT.toNat - 1 ∧ t.ST.toNat = s.ST.toNat - 1 ∧
      Keeps [.DT, .ST] s t) ∧
    hostCall .soundCount s = .next (s, .count s.ST)

/-- The timers change only by FX15, FX18 and decay: no other instruction and no other host operation but a step changes
DT or ST (R41, R42, R276). -/
def Obligations.TimersChangeOnlyBySetAndDecay : Prop :=
  (∀ (i : Instr) (s t : State), exec i s = .next t →
    (t.DT ≠ s.DT → ∃ x, i = .ldDtVx x) ∧ (t.ST ≠ s.ST → ∃ x, i = .ldStVx x)) ∧
  (∀ (op : HostOp) (s t : State) (r : Response), op ≠ .step → op ≠ .decay → hostCall op s = .next (t, r) →
    t.DT = s.DT ∧ t.ST = s.ST)

/-! ### Faults and the host interface -/

/-- isSet (R202, R286): in range it answers the pixel and changes nothing; out of range it faults with the coordinates.
-/
def Obligations.PixelQueryIsBoundsChecked : Prop :=
  ∀ (s : State) (x y : Nat), (∀ f, s.mode ≠ .halted f) →
    (∀ (hx : x < 64) (hy : y < 32), hostCall (.isSet x y) s = .next (s, .pixel ((s.fb[y])[x]))) ∧
    (64 ≤ x ∨ 32 ≤ y → hostCall (.isSet x y) s = .fault (.pixelOob x y))

/-- A fault halts the machine for good (R262, R263; the spec's decision D3). The states after a faulting call are
exactly those with the fault's record as mode and the same configuration, so nothing else is fixed (log 1); on a halted
machine no host operation has a move, which the model says by a refusal (log 2). -/
def Obligations.FaultsHaltForGood : Prop :=
  (∀ (op : HostOp) (s : State) (f : Fault), hostCall op s = .fault f →
    ∀ s', Transaction op s s' ↔ s'.mode = .halted f ∧ s'.cfg = s.cfg) ∧
  (∀ (op : HostOp) (s : State) (f : Fault), s.mode = .halted f →
    hostCall op s = .refused .haltedMachine ∧ ∀ s', ¬Transaction op s s')

/-- Every fault that a step raises records the address of the word it fetched (R261; the spec's decision D2; log 3). -/
def Obligations.StepFaultNamesItsWord : Prop :=
  ∀ (s : State) (f : Fault), step s = .fault f → f.faultPc = some s.pc

/-- Which instructions raise which faults, and with what info (R260; the spec's decisions D2, D4, D10 and D14). -/
def Obligations.InstructionFaultKinds : Prop :=
  ∀ (i : Instr) (s : State) (f : Fault), exec i s = .fault f →
    (f.code = 2 → ((∃ x y n, i = .drw x y n) ∨ ∃ x, i = .ldVxMem x) ∧ f.info = [max (effAddr s 0) 4096]) ∧
    (f.code = 3 → ((∃ x, i = .ldB x) ∨ ∃ x, i = .ldMemVx x) ∧ f.info = [max (effAddr s 0) 4096]) ∧
    (f.code = 4 → (∃ nnn, i = .call nnn) ∧ f.info = [s.pc.toNat]) ∧
    (f.code = 5 → i = .ret ∧ f.info = [0]) ∧
    (f.code = 8 → ∃ x, (i = .skp x ∨ i = .sknp x) ∧ f.info = [(s.reg x).toNat] ∧ 15 < (s.reg x).toNat) ∧
    (f.code = 9 → ((∃ nnn, i = .unrecU0 nnn) ∨ (∃ x y n, i = .unrecU8 x y n) ∨ (∃ x nn, i = .unrecUE x nn) ∨
      ∃ x nn, i = .unrecUF x nn) ∧ s.cfg.policy = .fault ∧ f.info = [(encode i).toNat]) ∧
    f.code ∈ [2, 3, 4, 5, 8, 9]

/-! ### Rules about every instruction -/

/-- A general register changes only if the instruction has it as a destination, or if it is VF and the instruction
writes a flag (R30, R31; R32's table, an inference of the spec). -/
def Obligations.RegistersChangeOnlyAsDestinations : Prop :=
  ∀ (i : Instr) (s t : State) (r : Reg), exec i s = .next t → t.reg r ≠ s.reg r →
    i.hasDest r = true ∨ (r = 15 ∧ i.writesFlag = true)

/-- I changes only by ANNN, FX1E and FX29; memory only by FX33 and FX55; the keys and the configuration by no
instruction (R36, R43, R48, R66; the spec's decisions D12 and D13). The last clause, that only CXNN advances the
counter of draws, is about the model's own field (log 6). -/
def Obligations.IndexMemoryAndKeysWriters : Prop :=
  ∀ (i : Instr) (s t : State), exec i s = .next t →
    (t.I ≠ s.I → (∃ nnn, i = .ldI nnn) ∨ (∃ x, i = .addI x) ∨ ∃ x, i = .ldF x) ∧
    (t.mem ≠ s.mem → (∃ x, i = .ldB x) ∨ ∃ x, i = .ldMemVx x) ∧
    t.keys = s.keys ∧ t.cfg = s.cfg ∧ (t.draws ≠ s.draws → ∃ x nn, i = .rnd x nn)

/-- Only 2NNN and 00EE reach the call stack (R37): every other instruction does the same whatever the stack and SP
hold, and leaves them as they are. -/
def Obligations.OnlyCallAndReturnReachTheStack : Prop :=
  ∀ (i : Instr) (s : State) (sp : Byte) (stack : Vector Word 16), i ≠ .ret → (∀ nnn, i ≠ .call nnn) →
    exec i (s.withCallStack sp stack) = mapState (fun t => t.withCallStack sp stack) (exec i s)

/-! ### Creation and invariants -/

/-- create (R300, R302, R283; the spec's decisions D27, D28 and D35): an image of at most 3584 bytes is loaded verbatim
at 0x200 over zeros, with the font in low memory and every other piece of state as R50 says; a longer one faults. The
counter of draws is the model's own (log 6) and is not mentioned. The model's reset state is the creation with the
default configuration and an empty image (log 4, log 9). -/
def Obligations.CreationLoadsTheImage : Prop :=
  ∀ (cfg : Config) (image : List Byte),
    (image.length ≤ 3584 → ∃ s, create cfg image = .next s ∧
      (∀ r, s.reg r = 0) ∧ s.I = 0 ∧ s.pc = 0x200 ∧ s.SP = 0xFF ∧ (∀ k : Fin 16, s.stack[k.val] = 0) ∧
      s.DT = 0 ∧ s.ST = 0 ∧ (∀ k : Key, s.keys[k.val] = false) ∧ (∀ r c, Grid.pixel s.fb r c = false) ∧
      s.mode = .running ∧ s.cfg = cfg ∧
      (∀ (a : Nat) (h : a < 80), s.byteAt a = cfg.font[a]) ∧
      (∀ a, 80 ≤ a → a < 0x200 → s.byteAt a = 0) ∧
      (∀ (j : Nat) (h : j < image.length), s.byteAt (0x200 + j) = image[j]) ∧
      (∀ a, 0x200 + image.length ≤ a → s.byteAt a = 0)) ∧
    (3584 < image.length → create cfg image = .fault (.imageTooLarge image.length)) ∧
    create Config.standard [] = .next State.reset

/-- The invariant holds at reset. State.reset is the model's choice of a creation (log 4, log 9), and the canonical
form of memory in the invariant is the model's (log 8). -/
def Obligations.ResetMeetsTheInvariant : Prop :=
  State.reset.Inv

/-- Every step keeps the invariant, from any state that meets it: SP stays legal (R38), memory stays canonical (log 8),
pc stays at or below 0x10FE (R35) and every slot at or below 0x1000. -/
def Obligations.StepKeepsTheInvariant : Prop :=
  ∀ s t : State, s.Inv → step s = .next t → t.Inv

/-- Every host operation keeps the invariant, so every sequence of them does, in every order and number (R280). The
canonical form of memory in the invariant (log 8) and the order that is free from creation on (log 13) are the
model's. -/
def Obligations.EveryRunKeepsTheInvariant : Prop :=
  ∀ (ops : List HostOp) (s t : State), s.Inv → runCalls ops s = .next t → t.Inv

/-- A creation meets the invariant, whatever the configuration and the image (R283). The canonical form of memory in
the invariant is the model's (log 8). -/
def Obligations.CreationMeetsTheInvariant : Prop :=
  ∀ (cfg : Config) (image : List Byte) (s : State), create cfg image = .next s → s.Inv

/-- The machine is never stuck: no instruction is refused in a state whose SP is legal, and no host operation in a
state that meets the invariant and is not halted; each answers or raises a fault of the spec (R38, R280, R281). With an
illegal SP, which no run reaches, only 00EE is refused (log 11). -/
def Obligations.LiveMachineIsNeverStuck : Prop :=
  (∀ (i : Instr) (s : State) (q : Refusal), exec i s = .refused q → i = .ret ∧ ¬s.legalSP) ∧
  (∀ (op : HostOp) (s : State) (q : Refusal), s.Inv → (∀ f, s.mode ≠ .halted f) → hostCall op s ≠ .refused q)
end

