-- ==== Sys2Proof/Laws/Decode.lean ====
section
/-! SUPPORT. The bits and the fields of a word made by a format, and a word made again from its fields. -/

namespace Sys2Proof

@[simp] theorem nibble_toFin (b : BitVec 4) : nibble b.toFin = b := rfl
@[simp] theorem toFin_nibble (x : Fin 16) : (nibble x).toFin = x := rfl

theorem nibble_fieldX (w : Word) : nibble (fieldX w) = w.extractLsb' 8 4 := rfl
theorem nibble_fieldY (w : Word) : nibble (fieldY w) = w.extractLsb' 4 4 := rfl

/-! ### Bits of a format -/

section
variable (op : BitVec 4) (nnn : Addr12) (x y : Reg) (nn : Byte) (n : BitVec 4)

theorem formatA_bit (k : Nat) :
    (formatA op nnn).getLsbD k = if k < 12 then nnn.getLsbD k else op.getLsbD (k - 12) :=
  (BitVec.getLsbD_append (x := op) (y := nnn)).trans (by split <;> simp_all)

theorem formatRI_bit (k : Nat) :
    (formatRI op x nn).getLsbD k =
      if k < 8 then nn.getLsbD k else if k < 12 then (nibble x).getLsbD (k - 8) else op.getLsbD (k - 12) := by
  refine (BitVec.getLsbD_append (x := op ++ nibble x) (y := nn)).trans ?_
  rw [BitVec.getLsbD_append]
  by_cases h1 : k < 8 <;> by_cases h2 : k < 12
  · simp [h1]
  · omega
  · simp [h1, h2, show k - 8 < 4 by omega]
  · simp [h1, h2, show ¬k - 8 < 4 by omega, show k - 8 - 4 = k - 12 by omega]

theorem formatRR_bit (k : Nat) :
    (formatRR op x y n).getLsbD k =
      if k < 4 then n.getLsbD k else if k < 8 then (nibble y).getLsbD (k - 4)
      else if k < 12 then (nibble x).getLsbD (k - 8) else op.getLsbD (k - 12) := by
  refine (BitVec.getLsbD_append (x := op ++ nibble x ++ nibble y) (y := n)).trans ?_
  rw [BitVec.getLsbD_append, BitVec.getLsbD_append]
  by_cases h1 : k < 4
  · simp [h1]
  · by_cases h2 : k < 8
    · simp [h1, h2, show k - 4 < 4 by omega]
    · by_cases h3 : k < 12
      · simp [h1, h2, h3, show ¬k - 4 < 4 by omega, show k - 4 - 4 = k - 8 by omega, show k - 8 < 4 by omega]
      · simp [h1, h2, h3, show ¬k - 4 < 4 by omega, show k - 4 - 4 = k - 8 by omega, show ¬k - 8 < 4 by omega,
          show k - 8 - 4 = k - 12 by omega]

/-! ### Reading the fields of a format -/

@[simp] theorem fieldOp_formatA : fieldOp (formatA op nnn) = op := by
  apply BitVec.eq_of_getLsbD_eq
  intro k hk
  simp [fieldOp, formatA_bit, hk]

@[simp] theorem fieldNNN_formatA : fieldNNN (formatA op nnn) = nnn := by
  apply BitVec.eq_of_getLsbD_eq
  intro k hk
  simp [fieldNNN, formatA_bit, hk]

@[simp] theorem fieldOp_formatRI : fieldOp (formatRI op x nn) = op := by
  apply BitVec.eq_of_getLsbD_eq
  intro k hk
  simp [fieldOp, formatRI_bit, show ¬12 + k < 8 by omega, hk]

@[simp] theorem fieldX_formatRI : fieldX (formatRI op x nn) = x := by
  have : (formatRI op x nn).extractLsb' 8 4 = nibble x := by
    apply BitVec.eq_of_getLsbD_eq
    intro k hk
    simp [formatRI_bit, show 8 + k < 12 by omega, hk]
  simp only [fieldX, this, toFin_nibble]

@[simp] theorem fieldNN_formatRI : fieldNN (formatRI op x nn) = nn := by
  apply BitVec.eq_of_getLsbD_eq
  intro k hk
  simp [fieldNN, formatRI_bit, hk]

@[simp] theorem fieldOp_formatRR : fieldOp (formatRR op x y n) = op := by
  apply BitVec.eq_of_getLsbD_eq
  intro k hk
  simp [fieldOp, formatRR_bit, show ¬12 + k < 4 by omega, show ¬12 + k < 8 by omega, hk]

@[simp] theorem fieldX_formatRR : fieldX (formatRR op x y n) = x := by
  have : (formatRR op x y n).extractLsb' 8 4 = nibble x := by
    apply BitVec.eq_of_getLsbD_eq
    intro k hk
    simp [formatRR_bit, show ¬8 + k < 4 by omega, show 8 + k < 12 by omega, hk]
  simp only [fieldX, this, toFin_nibble]

@[simp] theorem fieldY_formatRR : fieldY (formatRR op x y n) = y := by
  have : (formatRR op x y n).extractLsb' 4 4 = nibble y := by
    apply BitVec.eq_of_getLsbD_eq
    intro k hk
    simp [formatRR_bit, show 4 + k < 8 by omega, hk]
  simp only [fieldY, this, toFin_nibble]

@[simp] theorem fieldN_formatRR : fieldN (formatRR op x y n) = n := by
  apply BitVec.eq_of_getLsbD_eq
  intro k hk
  simp [fieldN, formatRR_bit, hk]

end

/-! ### A word from its fields -/

theorem formatA_fields (w : Word) : formatA (fieldOp w) (fieldNNN w) = w := by
  apply BitVec.eq_of_getLsbD_eq
  intro k hk
  rw [formatA_bit]
  split
  · next h => simp [fieldNNN, h]
  · next h => simp [fieldOp, show k - 12 < 4 by omega, show 12 + (k - 12) = k by omega]

theorem formatRI_fields (w : Word) : formatRI (fieldOp w) (fieldX w) (fieldNN w) = w := by
  apply BitVec.eq_of_getLsbD_eq
  intro k hk
  rw [formatRI_bit]
  split
  · next h => simp [fieldNN, h]
  · split
    · next h1 h2 => simp [nibble_fieldX, show k - 8 < 4 by omega, show 8 + (k - 8) = k by omega]
    · next h => simp [fieldOp, show k - 12 < 4 by omega, show 12 + (k - 12) = k by omega]

theorem formatRR_fields (w : Word) : formatRR (fieldOp w) (fieldX w) (fieldY w) (fieldN w) = w := by
  apply BitVec.eq_of_getLsbD_eq
  intro k hk
  rw [formatRR_bit]
  split
  · next h => simp [fieldN, h]
  · split
    · next h1 h2 => simp [nibble_fieldY, show k - 4 < 4 by omega, show 4 + (k - 4) = k by omega]
    · split
      · next h1 h2 h3 => simp [nibble_fieldX, show k - 8 < 4 by omega, show 8 + (k - 8) = k by omega]
      · next h => simp [fieldOp, show k - 12 < 4 by omega, show 12 + (k - 12) = k by omega]

/-- A word from its two bytes, as a number (R64, R67). -/
theorem wordOfBytes_toNat (hi lo : Byte) : (wordOfBytes hi lo).toNat = 256 * hi.toNat + lo.toNat := by
  have : (hi ++ lo).toNat = hi.toNat <<< 8 ||| lo.toNat := BitVec.toNat_append hi lo
  refine this.trans ?_
  rw [← Nat.shiftLeft_add_eq_or_of_lt lo.isLt, Nat.shiftLeft_eq]
  omega

theorem wordOfBytes_hiByte_loByte (w : Word) : wordOfBytes (hiByte w) (loByte w) = w := by
  apply BitVec.eq_of_getLsbD_eq
  intro k hk
  refine (BitVec.getLsbD_append (x := hiByte w) (y := loByte w)).trans ?_
  by_cases h : k < 8
  · simp [h, loByte]
  · simp [h, hiByte, show k - 8 < 8 by omega, show 8 + (k - 8) = k by omega]

end Sys2Proof
end

