-- ==== Sys2Proof/Laws/Memory.lean ====
section
/-! SUPPORT. Memory as data: a read after a write, and the canonical form that every write keeps and that makes equal
memories equal lists. -/

namespace Sys2Proof.Machine.Memory

variable {font : Vector Byte 80}

@[simp] theorem read_nil (a : Nat) : read font [] a = initialByte font a := rfl

theorem read_cons (k : Nat) (b : Byte) (m : List Host.Cell) (a : Nat) :
    read font ((k, b) :: m) a = if a = k then b else read font m a := rfl

/-! ### The canonical form -/

theorem wfFrom_cons {lo k : Nat} {b : Byte} {m : List Host.Cell} :
    wfFrom font lo ((k, b) :: m) = true ↔
      lo ≤ k ∧ k < Config.memSize ∧ b ≠ initialByte font k ∧ wfFrom font (k + 1) m = true := by
  simp [wfFrom, and_assoc]

theorem wfFrom_mono {lo lo' : Nat} {m : List Host.Cell} (h : wfFrom font lo m = true) (hl : lo' ≤ lo) :
    wfFrom font lo' m = true := by
  match m with
  | [] => rfl
  | (k, b) :: rest =>
    rw [wfFrom_cons] at h ⊢
    exact ⟨by omega, h.2⟩

/-- An address below every cell reads as unlisted. -/
theorem read_below {lo a : Nat} {m : List Host.Cell} (h : wfFrom font lo m = true) (ha : a < lo) :
    read font m a = initialByte font a := by
  induction m generalizing lo with
  | nil => rfl
  | cons c rest ih =>
    obtain ⟨k, b⟩ := c
    rw [wfFrom_cons] at h
    rw [read_cons, if_neg (by omega), ih h.2.2.2 (by omega)]

/-! ### Reading a write back -/

theorem read_consCell {lo a : Nat} {b : Byte} {m : List Host.Cell} (h : wfFrom font lo m = true) (ha : a < lo)
    (x : Nat) : read font (cons font a b m) x = if x = a then b else read font m x := by
  unfold cons
  split
  · next hb =>
    split
    · next hx => rw [hx, read_below h ha, hb]
    · rfl
  · rfl

theorem read_writeFrom {lo : Nat} {m : List Host.Cell} (h : wfFrom font lo m = true) (a : Nat) (b : Byte) (x : Nat) :
    read font (write font m a b) x = if x = a then b else read font m x := by
  induction m generalizing lo with
  | nil => exact read_consCell (lo := a + 1) rfl (by omega) x
  | cons c rest ih =>
    obtain ⟨k, v⟩ := c
    rw [wfFrom_cons] at h
    unfold write
    split
    · next hk => exact read_consCell (lo := k) (wfFrom_cons.2 ⟨Nat.le_refl k, h.2⟩) hk x
    · split
      · next hk =>
        rw [read_consCell h.2.2.2 (by omega), read_cons, hk]
        split <;> simp_all
      · next hne =>
        rw [read_cons, read_cons, ih h.2.2.2]
        split <;> split <;> first | rfl | omega

/-- A read after a write: the byte written at its address, every other byte as before. -/
theorem read_write {m : List Host.Cell} (h : wf font m = true) (a : Nat) (b : Byte) (x : Nat) :
    read font (write font m a b) x = if x = a then b else read font m x :=
  read_writeFrom h a b x

/-! ### Every write keeps the canonical form -/

theorem wfFrom_consCell {lo a : Nat} {b : Byte} {m : List Host.Cell} (hlo : lo ≤ a) (ha : a < Config.memSize)
    (h : wfFrom font (a + 1) m = true) : wfFrom font lo (cons font a b m) = true := by
  unfold cons
  split
  · exact wfFrom_mono h (by omega)
  · next hb => exact wfFrom_cons.2 ⟨hlo, ha, hb, h⟩

theorem wfFrom_write {lo : Nat} {m : List Host.Cell} (h : wfFrom font lo m = true) {a : Nat} (hlo : lo ≤ a)
    (ha : a < Config.memSize) (b : Byte) : wfFrom font lo (write font m a b) = true := by
  induction m generalizing lo with
  | nil => exact wfFrom_consCell hlo ha rfl
  | cons c rest ih =>
    obtain ⟨k, v⟩ := c
    rw [wfFrom_cons] at h
    unfold write
    split
    · next hk => exact wfFrom_consCell hlo ha (wfFrom_cons.2 ⟨by omega, h.2⟩)
    · split
      · next hk => exact wfFrom_consCell hlo ha (hk ▸ h.2.2.2)
      · exact wfFrom_cons.2 ⟨h.1, h.2.1, h.2.2.1, ih h.2.2.2 (by omega)⟩

/-- Every write of an address of memory keeps the canonical form. -/
theorem wf_write {m : List Host.Cell} (h : wf font m = true) {a : Nat} (ha : a < Config.memSize) (b : Byte) :
    wf font (write font m a b) = true :=
  wfFrom_write h (Nat.zero_le a) ha b

@[simp] theorem wf_nil : wf font [] = true := rfl

/-! ### Equal memories are equal lists -/

theorem eq_of_read_from {lo : Nat} {m n : List Host.Cell} (hm : wfFrom font lo m = true)
    (hn : wfFrom font lo n = true) (h : ∀ a, read font m a = read font n a) : m = n := by
  induction m generalizing lo n with
  | nil =>
    match n with
    | [] => rfl
    | (k, b) :: rest =>
      rw [wfFrom_cons] at hn
      exact absurd (by simpa [read_cons] using (h k).symm) hn.2.2.1
  | cons c rest ih =>
    obtain ⟨k, b⟩ := c
    have hm' := wfFrom_cons.1 hm
    match n with
    | [] => exact absurd (by simpa [read_cons] using h k) hm'.2.2.1
    | (k', b') :: rest' =>
      have hn' := wfFrom_cons.1 hn
      have hk : k = k' := by
        rcases Nat.lt_trichotomy k k' with hlt | heq | hgt
        · have := h k
          rw [read_cons, if_pos rfl, read_below (wfFrom_cons.2 ⟨Nat.le_refl k', hn'.2⟩) hlt] at this
          exact absurd this hm'.2.2.1
        · exact heq
        · have := h k'
          rw [read_cons (k := k'), if_pos rfl, read_below (wfFrom_cons.2 ⟨Nat.le_refl k, hm'.2⟩) hgt] at this
          exact absurd this.symm hn'.2.2.1
      subst hk
      have hb : b = b' := by simpa [read_cons] using h k
      subst hb
      rw [ih hm'.2.2.2 hn'.2.2.2 fun a => ?_]
      by_cases ha : a < k + 1
      · rw [read_below hm'.2.2.2 ha, read_below hn'.2.2.2 ha]
      · have := h a
        rwa [read_cons, read_cons, if_neg (by omega), if_neg (by omega)] at this

/-- Two canonical memories that read the same everywhere are the same list. -/
theorem eq_of_read {m n : List Host.Cell} (hm : wf font m = true) (hn : wf font n = true)
    (h : ∀ a, read font m a = read font n a) : m = n :=
  eq_of_read_from hm hn h

end Sys2Proof.Machine.Memory
end

