-- ==== Sys2Proof/Laws/State.lean ====
section
/-! SUPPORT. One lemma per field per update of the state, each true by computation, so that no proof unfolds a record
update. -/

namespace Sys2Proof.Machine.State

variable (s : State)

/-! ### setReg -/

@[simp] theorem setReg_V (x : Reg) (b : Byte) : (s.setReg x b).V = s.V.set x.val b := rfl
@[simp] theorem setReg_I (x : Reg) (b : Byte) : (s.setReg x b).I = s.I := rfl
@[simp] theorem setReg_pc (x : Reg) (b : Byte) : (s.setReg x b).pc = s.pc := rfl
@[simp] theorem setReg_SP (x : Reg) (b : Byte) : (s.setReg x b).SP = s.SP := rfl
@[simp] theorem setReg_stack (x : Reg) (b : Byte) : (s.setReg x b).stack = s.stack := rfl
@[simp] theorem setReg_DT (x : Reg) (b : Byte) : (s.setReg x b).DT = s.DT := rfl
@[simp] theorem setReg_ST (x : Reg) (b : Byte) : (s.setReg x b).ST = s.ST := rfl
@[simp] theorem setReg_keys (x : Reg) (b : Byte) : (s.setReg x b).keys = s.keys := rfl
@[simp] theorem setReg_fb (x : Reg) (b : Byte) : (s.setReg x b).fb = s.fb := rfl
@[simp] theorem setReg_mem (x : Reg) (b : Byte) : (s.setReg x b).mem = s.mem := rfl
@[simp] theorem setReg_mode (x : Reg) (b : Byte) : (s.setReg x b).mode = s.mode := rfl
@[simp] theorem setReg_cfg (x : Reg) (b : Byte) : (s.setReg x b).cfg = s.cfg := rfl
@[simp] theorem setReg_draws (x : Reg) (b : Byte) : (s.setReg x b).draws = s.draws := rfl
@[simp] theorem setReg_byteAt (x : Reg) (b : Byte) (a : Nat) : (s.setReg x b).byteAt a = s.byteAt a := rfl
@[simp] theorem setReg_faultPc (x : Reg) (b : Byte) : (s.setReg x b).faultPc = s.faultPc := rfl

/-! ### setI -/

@[simp] theorem setI_V (w : Word) : (s.setI w).V = s.V := rfl
@[simp] theorem setI_I (w : Word) : (s.setI w).I = w := rfl
@[simp] theorem setI_pc (w : Word) : (s.setI w).pc = s.pc := rfl
@[simp] theorem setI_SP (w : Word) : (s.setI w).SP = s.SP := rfl
@[simp] theorem setI_stack (w : Word) : (s.setI w).stack = s.stack := rfl
@[simp] theorem setI_DT (w : Word) : (s.setI w).DT = s.DT := rfl
@[simp] theorem setI_ST (w : Word) : (s.setI w).ST = s.ST := rfl
@[simp] theorem setI_keys (w : Word) : (s.setI w).keys = s.keys := rfl
@[simp] theorem setI_fb (w : Word) : (s.setI w).fb = s.fb := rfl
@[simp] theorem setI_mem (w : Word) : (s.setI w).mem = s.mem := rfl
@[simp] theorem setI_mode (w : Word) : (s.setI w).mode = s.mode := rfl
@[simp] theorem setI_cfg (w : Word) : (s.setI w).cfg = s.cfg := rfl
@[simp] theorem setI_draws (w : Word) : (s.setI w).draws = s.draws := rfl
@[simp] theorem setI_reg (w : Word) (r : Reg) : (s.setI w).reg r = s.reg r := rfl
@[simp] theorem setI_byteAt (w : Word) (a : Nat) : (s.setI w).byteAt a = s.byteAt a := rfl
@[simp] theorem setI_faultPc (w : Word) : (s.setI w).faultPc = s.faultPc := rfl

/-! ### setPc -/

@[simp] theorem setPc_V (w : Word) : (s.setPc w).V = s.V := rfl
@[simp] theorem setPc_I (w : Word) : (s.setPc w).I = s.I := rfl
@[simp] theorem setPc_pc (w : Word) : (s.setPc w).pc = w := rfl
@[simp] theorem setPc_SP (w : Word) : (s.setPc w).SP = s.SP := rfl
@[simp] theorem setPc_stack (w : Word) : (s.setPc w).stack = s.stack := rfl
@[simp] theorem setPc_DT (w : Word) : (s.setPc w).DT = s.DT := rfl
@[simp] theorem setPc_ST (w : Word) : (s.setPc w).ST = s.ST := rfl
@[simp] theorem setPc_keys (w : Word) : (s.setPc w).keys = s.keys := rfl
@[simp] theorem setPc_fb (w : Word) : (s.setPc w).fb = s.fb := rfl
@[simp] theorem setPc_mem (w : Word) : (s.setPc w).mem = s.mem := rfl
@[simp] theorem setPc_mode (w : Word) : (s.setPc w).mode = s.mode := rfl
@[simp] theorem setPc_cfg (w : Word) : (s.setPc w).cfg = s.cfg := rfl
@[simp] theorem setPc_draws (w : Word) : (s.setPc w).draws = s.draws := rfl
@[simp] theorem setPc_reg (w : Word) (r : Reg) : (s.setPc w).reg r = s.reg r := rfl
@[simp] theorem setPc_byteAt (w : Word) (a : Nat) : (s.setPc w).byteAt a = s.byteAt a := rfl

/-! ### setSP -/

@[simp] theorem setSP_V (b : Byte) : (s.setSP b).V = s.V := rfl
@[simp] theorem setSP_I (b : Byte) : (s.setSP b).I = s.I := rfl
@[simp] theorem setSP_pc (b : Byte) : (s.setSP b).pc = s.pc := rfl
@[simp] theorem setSP_SP (b : Byte) : (s.setSP b).SP = b := rfl
@[simp] theorem setSP_stack (b : Byte) : (s.setSP b).stack = s.stack := rfl
@[simp] theorem setSP_DT (b : Byte) : (s.setSP b).DT = s.DT := rfl
@[simp] theorem setSP_ST (b : Byte) : (s.setSP b).ST = s.ST := rfl
@[simp] theorem setSP_keys (b : Byte) : (s.setSP b).keys = s.keys := rfl
@[simp] theorem setSP_fb (b : Byte) : (s.setSP b).fb = s.fb := rfl
@[simp] theorem setSP_mem (b : Byte) : (s.setSP b).mem = s.mem := rfl
@[simp] theorem setSP_mode (b : Byte) : (s.setSP b).mode = s.mode := rfl
@[simp] theorem setSP_cfg (b : Byte) : (s.setSP b).cfg = s.cfg := rfl
@[simp] theorem setSP_draws (b : Byte) : (s.setSP b).draws = s.draws := rfl
@[simp] theorem setSP_reg (b : Byte) (r : Reg) : (s.setSP b).reg r = s.reg r := rfl
@[simp] theorem setSP_byteAt (b : Byte) (a : Nat) : (s.setSP b).byteAt a = s.byteAt a := rfl
@[simp] theorem setSP_faultPc (b : Byte) : (s.setSP b).faultPc = s.faultPc := rfl

/-! ### setSlot -/

@[simp] theorem setSlot_V (k : Fin 16) (w : Word) : (s.setSlot k w).V = s.V := rfl
@[simp] theorem setSlot_I (k : Fin 16) (w : Word) : (s.setSlot k w).I = s.I := rfl
@[simp] theorem setSlot_pc (k : Fin 16) (w : Word) : (s.setSlot k w).pc = s.pc := rfl
@[simp] theorem setSlot_SP (k : Fin 16) (w : Word) : (s.setSlot k w).SP = s.SP := rfl
@[simp] theorem setSlot_stack (k : Fin 16) (w : Word) : (s.setSlot k w).stack = s.stack.set k.val w := rfl
@[simp] theorem setSlot_DT (k : Fin 16) (w : Word) : (s.setSlot k w).DT = s.DT := rfl
@[simp] theorem setSlot_ST (k : Fin 16) (w : Word) : (s.setSlot k w).ST = s.ST := rfl
@[simp] theorem setSlot_keys (k : Fin 16) (w : Word) : (s.setSlot k w).keys = s.keys := rfl
@[simp] theorem setSlot_fb (k : Fin 16) (w : Word) : (s.setSlot k w).fb = s.fb := rfl
@[simp] theorem setSlot_mem (k : Fin 16) (w : Word) : (s.setSlot k w).mem = s.mem := rfl
@[simp] theorem setSlot_mode (k : Fin 16) (w : Word) : (s.setSlot k w).mode = s.mode := rfl
@[simp] theorem setSlot_cfg (k : Fin 16) (w : Word) : (s.setSlot k w).cfg = s.cfg := rfl
@[simp] theorem setSlot_draws (k : Fin 16) (w : Word) : (s.setSlot k w).draws = s.draws := rfl
@[simp] theorem setSlot_reg (k : Fin 16) (w : Word) (r : Reg) : (s.setSlot k w).reg r = s.reg r := rfl
@[simp] theorem setSlot_byteAt (k : Fin 16) (w : Word) (a : Nat) : (s.setSlot k w).byteAt a = s.byteAt a := rfl
@[simp] theorem setSlot_faultPc (k : Fin 16) (w : Word) : (s.setSlot k w).faultPc = s.faultPc := rfl

/-! ### setDT -/

@[simp] theorem setDT_V (b : Byte) : (s.setDT b).V = s.V := rfl
@[simp] theorem setDT_I (b : Byte) : (s.setDT b).I = s.I := rfl
@[simp] theorem setDT_pc (b : Byte) : (s.setDT b).pc = s.pc := rfl
@[simp] theorem setDT_SP (b : Byte) : (s.setDT b).SP = s.SP := rfl
@[simp] theorem setDT_stack (b : Byte) : (s.setDT b).stack = s.stack := rfl
@[simp] theorem setDT_DT (b : Byte) : (s.setDT b).DT = b := rfl
@[simp] theorem setDT_ST (b : Byte) : (s.setDT b).ST = s.ST := rfl
@[simp] theorem setDT_keys (b : Byte) : (s.setDT b).keys = s.keys := rfl
@[simp] theorem setDT_fb (b : Byte) : (s.setDT b).fb = s.fb := rfl
@[simp] theorem setDT_mem (b : Byte) : (s.setDT b).mem = s.mem := rfl
@[simp] theorem setDT_mode (b : Byte) : (s.setDT b).mode = s.mode := rfl
@[simp] theorem setDT_cfg (b : Byte) : (s.setDT b).cfg = s.cfg := rfl
@[simp] theorem setDT_draws (b : Byte) : (s.setDT b).draws = s.draws := rfl
@[simp] theorem setDT_reg (b : Byte) (r : Reg) : (s.setDT b).reg r = s.reg r := rfl
@[simp] theorem setDT_byteAt (b : Byte) (a : Nat) : (s.setDT b).byteAt a = s.byteAt a := rfl
@[simp] theorem setDT_faultPc (b : Byte) : (s.setDT b).faultPc = s.faultPc := rfl

/-! ### setST -/

@[simp] theorem setST_V (b : Byte) : (s.setST b).V = s.V := rfl
@[simp] theorem setST_I (b : Byte) : (s.setST b).I = s.I := rfl
@[simp] theorem setST_pc (b : Byte) : (s.setST b).pc = s.pc := rfl
@[simp] theorem setST_SP (b : Byte) : (s.setST b).SP = s.SP := rfl
@[simp] theorem setST_stack (b : Byte) : (s.setST b).stack = s.stack := rfl
@[simp] theorem setST_DT (b : Byte) : (s.setST b).DT = s.DT := rfl
@[simp] theorem setST_ST (b : Byte) : (s.setST b).ST = b := rfl
@[simp] theorem setST_keys (b : Byte) : (s.setST b).keys = s.keys := rfl
@[simp] theorem setST_fb (b : Byte) : (s.setST b).fb = s.fb := rfl
@[simp] theorem setST_mem (b : Byte) : (s.setST b).mem = s.mem := rfl
@[simp] theorem setST_mode (b : Byte) : (s.setST b).mode = s.mode := rfl
@[simp] theorem setST_cfg (b : Byte) : (s.setST b).cfg = s.cfg := rfl
@[simp] theorem setST_draws (b : Byte) : (s.setST b).draws = s.draws := rfl
@[simp] theorem setST_reg (b : Byte) (r : Reg) : (s.setST b).reg r = s.reg r := rfl
@[simp] theorem setST_byteAt (b : Byte) (a : Nat) : (s.setST b).byteAt a = s.byteAt a := rfl
@[simp] theorem setST_faultPc (b : Byte) : (s.setST b).faultPc = s.faultPc := rfl

/-! ### setKey -/

@[simp] theorem setKey_V (k : Key) (b : Bool) : (s.setKey k b).V = s.V := rfl
@[simp] theorem setKey_I (k : Key) (b : Bool) : (s.setKey k b).I = s.I := rfl
@[simp] theorem setKey_pc (k : Key) (b : Bool) : (s.setKey k b).pc = s.pc := rfl
@[simp] theorem setKey_SP (k : Key) (b : Bool) : (s.setKey k b).SP = s.SP := rfl
@[simp] theorem setKey_stack (k : Key) (b : Bool) : (s.setKey k b).stack = s.stack := rfl
@[simp] theorem setKey_DT (k : Key) (b : Bool) : (s.setKey k b).DT = s.DT := rfl
@[simp] theorem setKey_ST (k : Key) (b : Bool) : (s.setKey k b).ST = s.ST := rfl
@[simp] theorem setKey_keys (k : Key) (b : Bool) : (s.setKey k b).keys = s.keys.set k.val b := rfl
@[simp] theorem setKey_fb (k : Key) (b : Bool) : (s.setKey k b).fb = s.fb := rfl
@[simp] theorem setKey_mem (k : Key) (b : Bool) : (s.setKey k b).mem = s.mem := rfl
@[simp] theorem setKey_mode (k : Key) (b : Bool) : (s.setKey k b).mode = s.mode := rfl
@[simp] theorem setKey_cfg (k : Key) (b : Bool) : (s.setKey k b).cfg = s.cfg := rfl
@[simp] theorem setKey_draws (k : Key) (b : Bool) : (s.setKey k b).draws = s.draws := rfl
@[simp] theorem setKey_reg (k : Key) (b : Bool) (r : Reg) : (s.setKey k b).reg r = s.reg r := rfl
@[simp] theorem setKey_byteAt (k : Key) (b : Bool) (a : Nat) : (s.setKey k b).byteAt a = s.byteAt a := rfl
@[simp] theorem setKey_faultPc (k : Key) (b : Bool) : (s.setKey k b).faultPc = s.faultPc := rfl

/-! ### setFb -/

@[simp] theorem setFb_V (g : Vector (Vector Bool 64) 32) : (s.setFb g).V = s.V := rfl
@[simp] theorem setFb_I (g : Vector (Vector Bool 64) 32) : (s.setFb g).I = s.I := rfl
@[simp] theorem setFb_pc (g : Vector (Vector Bool 64) 32) : (s.setFb g).pc = s.pc := rfl
@[simp] theorem setFb_SP (g : Vector (Vector Bool 64) 32) : (s.setFb g).SP = s.SP := rfl
@[simp] theorem setFb_stack (g : Vector (Vector Bool 64) 32) : (s.setFb g).stack = s.stack := rfl
@[simp] theorem setFb_DT (g : Vector (Vector Bool 64) 32) : (s.setFb g).DT = s.DT := rfl
@[simp] theorem setFb_ST (g : Vector (Vector Bool 64) 32) : (s.setFb g).ST = s.ST := rfl
@[simp] theorem setFb_keys (g : Vector (Vector Bool 64) 32) : (s.setFb g).keys = s.keys := rfl
@[simp] theorem setFb_fb (g : Vector (Vector Bool 64) 32) : (s.setFb g).fb = g := rfl
@[simp] theorem setFb_mem (g : Vector (Vector Bool 64) 32) : (s.setFb g).mem = s.mem := rfl
@[simp] theorem setFb_mode (g : Vector (Vector Bool 64) 32) : (s.setFb g).mode = s.mode := rfl
@[simp] theorem setFb_cfg (g : Vector (Vector Bool 64) 32) : (s.setFb g).cfg = s.cfg := rfl
@[simp] theorem setFb_draws (g : Vector (Vector Bool 64) 32) : (s.setFb g).draws = s.draws := rfl
@[simp] theorem setFb_reg (g : Vector (Vector Bool 64) 32) (r : Reg) : (s.setFb g).reg r = s.reg r := rfl
@[simp] theorem setFb_byteAt (g : Vector (Vector Bool 64) 32) (a : Nat) : (s.setFb g).byteAt a = s.byteAt a := rfl
@[simp] theorem setFb_faultPc (g : Vector (Vector Bool 64) 32) : (s.setFb g).faultPc = s.faultPc := rfl

/-! ### setMem -/

@[simp] theorem setMem_V (m : List Host.Cell) : (s.setMem m).V = s.V := rfl
@[simp] theorem setMem_I (m : List Host.Cell) : (s.setMem m).I = s.I := rfl
@[simp] theorem setMem_pc (m : List Host.Cell) : (s.setMem m).pc = s.pc := rfl
@[simp] theorem setMem_SP (m : List Host.Cell) : (s.setMem m).SP = s.SP := rfl
@[simp] theorem setMem_stack (m : List Host.Cell) : (s.setMem m).stack = s.stack := rfl
@[simp] theorem setMem_DT (m : List Host.Cell) : (s.setMem m).DT = s.DT := rfl
@[simp] theorem setMem_ST (m : List Host.Cell) : (s.setMem m).ST = s.ST := rfl
@[simp] theorem setMem_keys (m : List Host.Cell) : (s.setMem m).keys = s.keys := rfl
@[simp] theorem setMem_fb (m : List Host.Cell) : (s.setMem m).fb = s.fb := rfl
@[simp] theorem setMem_mem (m : List Host.Cell) : (s.setMem m).mem = m := rfl
@[simp] theorem setMem_mode (m : List Host.Cell) : (s.setMem m).mode = s.mode := rfl
@[simp] theorem setMem_cfg (m : List Host.Cell) : (s.setMem m).cfg = s.cfg := rfl
@[simp] theorem setMem_draws (m : List Host.Cell) : (s.setMem m).draws = s.draws := rfl
@[simp] theorem setMem_reg (m : List Host.Cell) (r : Reg) : (s.setMem m).reg r = s.reg r := rfl
@[simp] theorem setMem_faultPc (m : List Host.Cell) : (s.setMem m).faultPc = s.faultPc := rfl

/-! ### setMode -/

@[simp] theorem setMode_V (m : Mode) : (s.setMode m).V = s.V := rfl
@[simp] theorem setMode_I (m : Mode) : (s.setMode m).I = s.I := rfl
@[simp] theorem setMode_pc (m : Mode) : (s.setMode m).pc = s.pc := rfl
@[simp] theorem setMode_SP (m : Mode) : (s.setMode m).SP = s.SP := rfl
@[simp] theorem setMode_stack (m : Mode) : (s.setMode m).stack = s.stack := rfl
@[simp] theorem setMode_DT (m : Mode) : (s.setMode m).DT = s.DT := rfl
@[simp] theorem setMode_ST (m : Mode) : (s.setMode m).ST = s.ST := rfl
@[simp] theorem setMode_keys (m : Mode) : (s.setMode m).keys = s.keys := rfl
@[simp] theorem setMode_fb (m : Mode) : (s.setMode m).fb = s.fb := rfl
@[simp] theorem setMode_mem (m : Mode) : (s.setMode m).mem = s.mem := rfl
@[simp] theorem setMode_mode (m : Mode) : (s.setMode m).mode = m := rfl
@[simp] theorem setMode_cfg (m : Mode) : (s.setMode m).cfg = s.cfg := rfl
@[simp] theorem setMode_draws (m : Mode) : (s.setMode m).draws = s.draws := rfl
@[simp] theorem setMode_reg (m : Mode) (r : Reg) : (s.setMode m).reg r = s.reg r := rfl
@[simp] theorem setMode_byteAt (m : Mode) (a : Nat) : (s.setMode m).byteAt a = s.byteAt a := rfl
@[simp] theorem setMode_faultPc (m : Mode) : (s.setMode m).faultPc = s.faultPc := rfl

/-! ### nextDraw -/

@[simp] theorem nextDraw_V : s.nextDraw.V = s.V := rfl
@[simp] theorem nextDraw_I : s.nextDraw.I = s.I := rfl
@[simp] theorem nextDraw_pc : s.nextDraw.pc = s.pc := rfl
@[simp] theorem nextDraw_SP : s.nextDraw.SP = s.SP := rfl
@[simp] theorem nextDraw_stack : s.nextDraw.stack = s.stack := rfl
@[simp] theorem nextDraw_DT : s.nextDraw.DT = s.DT := rfl
@[simp] theorem nextDraw_ST : s.nextDraw.ST = s.ST := rfl
@[simp] theorem nextDraw_keys : s.nextDraw.keys = s.keys := rfl
@[simp] theorem nextDraw_fb : s.nextDraw.fb = s.fb := rfl
@[simp] theorem nextDraw_mem : s.nextDraw.mem = s.mem := rfl
@[simp] theorem nextDraw_mode : s.nextDraw.mode = s.mode := rfl
@[simp] theorem nextDraw_cfg : s.nextDraw.cfg = s.cfg := rfl
@[simp] theorem nextDraw_draws : s.nextDraw.draws = s.draws + 1 := rfl
@[simp] theorem nextDraw_reg (r : Reg) : s.nextDraw.reg r = s.reg r := rfl
@[simp] theorem nextDraw_byteAt (a : Nat) : s.nextDraw.byteAt a = s.byteAt a := rfl
@[simp] theorem nextDraw_faultPc : s.nextDraw.faultPc = s.faultPc := rfl

/-! ### Registers read back -/

theorem setReg_reg (x r : Reg) (b : Byte) : (s.setReg x b).reg r = if r = x then b else s.reg r := by
  simp only [State.reg, State.setReg, Vector.getElem_set, Fin.ext_iff, eq_comm]

@[simp] theorem setReg_reg_self (x : Reg) (b : Byte) : (s.setReg x b).reg x = b := by
  simp [setReg_reg]

theorem setReg_reg_ne {x r : Reg} (b : Byte) (h : r ≠ x) : (s.setReg x b).reg r = s.reg r := by
  simp [setReg_reg, h]

end Sys2Proof.Machine.State
end

