-- ==== Sys2Proof/Laws/Ops.lean ====
section
/-! SUPPORT. One lemma for each shared operation that says everything it can do; the meanings' proofs cite these instead
of unfolding the operations. -/

namespace Sys2Proof.Machine

/-! ### Answers -/

section
variable {α β : Type}

@[simp] theorem andThen_next (a : α) (k : α → Result β) : andThen (.next a) k = k a := rfl
@[simp] theorem andThen_fault (f : Fault) (k : α → Result β) : andThen (.fault f) k = .fault f := rfl
@[simp] theorem andThen_refused (q : Refusal) (k : α → Result β) : andThen (.refused q) k = .refused q := rfl

theorem andThen_eq_next {r : Result α} {k : α → Result β} {b : β} :
    andThen r k = .next b ↔ ∃ a, r = .next a ∧ k a = .next b := by
  cases r <;> simp

theorem andThen_eq_fault {r : Result α} {k : α → Result β} {f : Fault} :
    andThen r k = .fault f ↔ r = .fault f ∨ ∃ a, r = .next a ∧ k a = .fault f := by
  cases r <;> simp

theorem andThen_eq_refused {r : Result α} {k : α → Result β} {q : Refusal} :
    andThen r k = .refused q ↔ r = .refused q ∨ ∃ a, r = .next a ∧ k a = .refused q := by
  cases r <;> simp

@[simp] theorem raise_eq (f : Fault) : (raise f : Result α) = .fault f := rfl

end

/-! ### Registers and flags -/

@[simp] theorem setFlag_reg (s : State) (b : Byte) (r : Reg) :
    (s.setFlag b).reg r = if r = 15 then b else s.reg r := State.setReg_reg s 15 r b

theorem setFlag_eq (s : State) (b : Byte) : s.setFlag b = s.setReg 15 b := rfl

theorem setResultFlag_eq (s : State) (x : Reg) (result flag : Byte) :
    setResultFlag s x result flag = (s.setReg x result).setReg 15 flag := rfl

theorem setResultFlag_reg (s : State) (x : Reg) (result flag : Byte) (r : Reg) :
    (setResultFlag s x result flag).reg r = if r = 15 then flag else if r = x then result else s.reg r := by
  simp [setResultFlag_eq, State.setReg_reg]

/-- A load of consecutive registers gives each register of the range its byte and keeps the others. -/
theorem setRegs_reg (s : State) (k : Nat) (bs : List Byte) (r : Reg) :
    (setRegs s k bs).reg r = if k ≤ r.val then (bs[r.val - k]?).getD (s.reg r) else s.reg r := by
  induction bs generalizing s k with
  | nil => simp [setRegs]
  | cons b rest ih =>
    unfold setRegs
    split
    · next hk =>
      rw [ih]
      rcases Nat.lt_trichotomy k r.val with h | h | h
      · obtain ⟨d, hd⟩ := Nat.exists_eq_add_of_lt h
        have : r ≠ ⟨k, hk⟩ := fun e => by simp [e] at h
        rw [if_pos (by omega), if_pos (by omega), State.setReg_reg_ne s b this,
          show r.val - k = (r.val - (k + 1)) + 1 by omega, List.getElem?_cons_succ]
      · have : r = ⟨k, hk⟩ := Fin.ext h.symm
        rw [if_neg (by omega), if_pos (by omega), this]
        simp
      · have : r ≠ ⟨k, hk⟩ := fun e => by simp [e] at h
        rw [if_neg (by omega), if_neg (by omega), State.setReg_reg_ne s b this]
    · next hk => rw [if_neg (by omega)]

/-- A load of registers writes nothing but registers. -/
theorem setRegs_eq (s : State) (k : Nat) (bs : List Byte) : ∃ V, setRegs s k bs = { s with V := V } := by
  induction bs generalizing s k with
  | nil => exact ⟨s.V, rfl⟩
  | cons b rest ih =>
    unfold setRegs
    split
    · obtain ⟨V, hV⟩ := ih (s.setReg ⟨k, _⟩ b) (k + 1)
      exact ⟨V, hV⟩
    · exact ⟨s.V, rfl⟩

/-! ### Memory -/

theorem memRead_eq (s : State) (a : Nat) :
    memRead s a = if a < 4096 then .next (s.byteAt a) else .fault (.memReadOob a s.faultPc) := rfl

theorem memWrite_eq (s : State) (a : Nat) (b : Byte) :
    memWrite s a b = if a < 4096 then .next (s.putByte a b) else .fault (.memWriteOob a s.faultPc) := rfl

theorem putByte_byteAt {s : State} (h : Memory.wf s.cfg.font s.mem = true) (a : Nat) (b : Byte) (x : Nat) :
    (s.putByte a b).byteAt x = if x = a then b else s.byteAt x :=
  Memory.read_write h a b x

theorem putByte_wf {s : State} (h : Memory.wf s.cfg.font s.mem = true) {a : Nat} (ha : a < Config.memSize) (b : Byte) :
    Memory.wf (s.putByte a b).cfg.font (s.putByte a b).mem = true :=
  Memory.wf_write h ha b

/-- Storing bytes writes nothing but memory. -/
theorem putBytes_eq (s : State) (a : Nat) (bs : List Byte) : s.putBytes a bs = { s with mem := (s.putBytes a bs).mem } := by
  induction bs generalizing s a with
  | nil => rfl
  | cons b rest ih =>
    have := ih (s.putByte a b) (a + 1)
    exact this

theorem putBytes_wf {s : State} (h : Memory.wf s.cfg.font s.mem = true) {a : Nat} {bs : List Byte}
    (ha : bs = [] ∨ a + bs.length ≤ Config.memSize) :
    Memory.wf (s.putBytes a bs).cfg.font (s.putBytes a bs).mem = true := by
  induction bs generalizing s a with
  | nil => exact h
  | cons b rest ih =>
    have hlen : a + (rest.length + 1) ≤ 4096 := by simpa using ha
    refine ih (putByte_wf h (by show a < 4096; omega) b) ?_
    rcases rest with _ | ⟨c, rest⟩
    · exact .inl rfl
    · exact .inr (by show _ ≤ 4096; simp at hlen ⊢; omega)

/-- Stored bytes read back in their places; every other byte is as before. -/
theorem putBytes_byteAt {s : State} (h : Memory.wf s.cfg.font s.mem = true) {a : Nat} {bs : List Byte}
    (ha : bs = [] ∨ a + bs.length ≤ Config.memSize) (x : Nat) :
    (s.putBytes a bs).byteAt x = if a ≤ x then (bs[x - a]?).getD (s.byteAt x) else s.byteAt x := by
  induction bs generalizing s a with
  | nil => simp [State.putBytes]
  | cons b rest ih =>
    have hlen : a + (rest.length + 1) ≤ 4096 := by simpa using ha
    have hr : rest = [] ∨ a + 1 + rest.length ≤ Config.memSize := .inr (by show _ ≤ 4096; omega)
    rw [State.putBytes, ih (putByte_wf h (by show a < 4096; omega) b) hr, putByte_byteAt h]
    rcases Nat.lt_trichotomy a x with hx | hx | hx
    · rw [if_pos (show a + 1 ≤ x by omega), if_neg (show x ≠ a by omega), if_pos (show a ≤ x by omega),
        show x - a = (x - (a + 1)) + 1 by omega, List.getElem?_cons_succ]
    · subst hx
      simp
    · rw [if_neg (show ¬a + 1 ≤ x by omega), if_neg (show x ≠ a by omega), if_neg (show ¬a ≤ x by omega)]

/-- Reading `n` bytes answers them in order if all are in memory, and else faults at the lowest address outside. -/
theorem readBytes_eq (s : State) (a n : Nat) :
    readBytes s a n =
      if n = 0 ∨ a + n ≤ 4096 then .next ((List.range n).map fun k => s.byteAt (a + k))
      else .fault (.memReadOob (max a 4096) s.faultPc) := by
  induction n generalizing a with
  | zero => rfl
  | succ n ih =>
    rw [readBytes, memRead_eq, ih]
    by_cases h1 : a < 4096
    · rw [if_pos h1, andThen_next]
      by_cases h2 : a + (n + 1) ≤ 4096
      · rw [if_pos (.inr (by omega)), if_pos (.inr h2), andThen_next, List.range_succ_eq_map]
        simp [Function.comp_def, Nat.add_comm 1, Nat.add_assoc, Nat.succ_eq_add_one]
      · rw [if_neg (by omega), if_neg (by omega), andThen_fault, show max (a + 1) 4096 = max a 4096 by omega]
    · rw [if_neg h1, if_neg (show ¬(n + 1 = 0 ∨ a + (n + 1) ≤ 4096) by omega), andThen_fault,
        show max a 4096 = a by omega]

/-- Writing bytes stores them all if all are in memory, and else faults at the lowest address outside. -/
theorem writeBytes_eq (s : State) (a : Nat) (bs : List Byte) :
    writeBytes s a bs =
      if bs = [] ∨ a + bs.length ≤ 4096 then .next (s.putBytes a bs)
      else .fault (.memWriteOob (max a 4096) s.faultPc) := by
  induction bs generalizing s a with
  | nil => rfl
  | cons b rest ih =>
    rw [writeBytes, memWrite_eq]
    by_cases h1 : a < 4096
    · rw [if_pos h1, andThen_next, ih]
      by_cases h2 : a + (rest.length + 1) ≤ 4096
      · rw [if_pos (.inr (by omega)), if_pos (.inr (by simpa using h2)), State.putBytes]
      · have hne : rest ≠ [] := fun e => by simp [e] at h2; omega
        rw [if_neg (by simp [hne]; omega), if_neg (by simp; omega), show max (a + 1) 4096 = max a 4096 by omega]
        rfl
    · rw [if_neg h1, if_neg (by simp; omega), andThen_fault, show max a 4096 = a by omega]

theorem fetchInsn_eq (s : State) :
    fetchInsn s =
      if s.pc.toNat + 1 < 4096 then .next (wordOfBytes (s.byteAt s.pc.toNat) (s.byteAt (s.pc.toNat + 1)))
      else .fault (.fetchOob s.pc) := by
  unfold fetchInsn
  by_cases h : s.pc.toNat + 1 < 4096
  · rw [if_pos h, if_pos ⟨by show _ < 4096; omega, h⟩]
  · rw [if_neg h, if_neg fun hc => h hc.2]
    rfl

/-! ### The call stack -/

theorem stackDepthOf_legal {sp : Byte} (h : sp = 0xFF ∨ sp.toNat < 16) : stackDepthOf sp = (sp + 1).toNat := by
  unfold stackDepthOf
  split
  · next he => subst he; rfl
  · next he =>
    have : sp.toNat < 16 := h.resolve_left he
    rw [BitVec.toNat_add]
    simp; omega

/-- What a push can do: write the next slot and point SP at it, or overflow. -/
theorem push_cases (s : State) (a : Word) :
    (∃ h : stackDepthOf s.SP < 16, push s a = .next ((s.setSP (s.SP + 1)).setSlot ⟨stackDepthOf s.SP, h⟩ a)) ∨
    (16 ≤ stackDepthOf s.SP ∧ push s a = .fault (.stackOverflow a s.faultPc)) := by
  unfold push
  split
  · next h => exact .inl ⟨h, rfl⟩
  · next h => exact .inr ⟨by simpa using h, rfl⟩

/-- What a pop can do: answer the top slot and lower SP, underflow, or refuse a state whose SP is no legal value. -/
theorem pop_cases (s : State) :
    (s.SP = 0xFF ∧ pop s = .fault (.stackUnderflow s.faultPc)) ∨
    (s.SP ≠ 0xFF ∧ ∃ h : s.SP.toNat < 16,
      pop s = .next (s.stack[s.SP.toNat], s.setSP (if s.SP = 0 then 0xFF else s.SP - 1))) ∨
    (s.SP ≠ 0xFF ∧ 16 ≤ s.SP.toNat ∧ pop s = .refused .illegalStackPointer) := by
  unfold pop
  split
  · next h => exact .inl ⟨h, rfl⟩
  · next h =>
    split
    · next h2 => exact .inr (.inl ⟨h, h2, rfl⟩)
    · next h2 => exact .inr (.inr ⟨h, by simpa using h2, rfl⟩)

/-! ### Program counter -/

theorem advance_eq (s : State) : advance s = s.setPc (s.pc + 2) := rfl

@[simp] theorem skipIf_true (s : State) : skipIf true s = s.setPc (s.pc + 2) := rfl
@[simp] theorem skipIf_false (s : State) : skipIf false s = s := rfl

theorem skipIf_eq (c : Bool) (s : State) : skipIf c s = s.setPc (if c then s.pc + 2 else s.pc) := by
  cases c <;> rfl

/-- During the execute phase of a step the fault address is the fetch address (R261). -/
@[simp] theorem advance_faultPc (s : State) : (advance s).faultPc = s.pc := by
  simp [advance, State.faultPc]

end Sys2Proof.Machine
end

