-- ==== Sys2Proof/Laws/Exec.lean ====
section
/-! SUPPORT. Said once: what each instruction's next state is, as a chain of field updates, and under which condition it
has one; and what a step can do. Proofs about all instructions go through these. -/

namespace Sys2Proof.Machine

/-- The next state of an instruction, and the condition under which it has one. -/
def NextState (s : State) (t : State) : Instr → Prop
  | .cls => t = s.setFb Grid.blank
  | .ret => ∃ h : s.SP.toNat < 16, s.SP ≠ 0xFF ∧
      t = (s.setSP (if s.SP = 0 then 0xFF else s.SP - 1)).setPc s.stack[s.SP.toNat]
  | .jp nnn => t = s.setPc (absolute nnn)
  | .call nnn => ∃ h : stackDepthOf s.SP < 16,
      t = ((s.setSP (s.SP + 1)).setSlot ⟨stackDepthOf s.SP, h⟩ s.pc).setPc (absolute nnn)
  | .seImm x nn => t = s.setPc (if s.reg x == nn then s.pc + 2 else s.pc)
  | .sneImm x nn => t = s.setPc (if s.reg x != nn then s.pc + 2 else s.pc)
  | .seReg x y => t = s.setPc (if s.reg x == s.reg y then s.pc + 2 else s.pc)
  | .sneReg x y => t = s.setPc (if s.reg x != s.reg y then s.pc + 2 else s.pc)
  | .ldImm x nn => t = s.setReg x nn
  | .addImm x nn => t = s.setReg x (addResult (s.reg x) nn)
  | .ldReg x y => t = s.setReg x (s.reg y)
  | .orReg x y => t = s.setReg x (s.reg x ||| s.reg y)
  | .andReg x y => t = s.setReg x (s.reg x &&& s.reg y)
  | .xorReg x y => t = s.setReg x (s.reg x ^^^ s.reg y)
  | .addReg x y => t = (s.setReg x (addResult (s.reg x) (s.reg y))).setReg 15 (addFlag (s.reg x) (s.reg y))
  | .sub x y => t = (s.setReg x (subResult (s.reg x) (s.reg y))).setReg 15 (subFlag (s.reg x) (s.reg y))
  | .shr x _ => t = (s.setReg x (shrResult (s.reg x))).setReg 15 (shrFlag (s.reg x))
  | .subn x y => t = (s.setReg x (subResult (s.reg y) (s.reg x))).setReg 15 (subFlag (s.reg y) (s.reg x))
  | .shl x _ => t = (s.setReg x (shlResult (s.reg x))).setReg 15 (shlFlag (s.reg x))
  | .ldI nnn => t = s.setI (absolute nnn)
  | .jpV0 nnn => t = s.setPc (offsetTarget s nnn)
  | .rnd x nn => t = s.nextDraw.setReg x (Config.draw s.draws &&& nn)
  | .drw x y n => (n.val = 0 ∨ effAddr s 0 + n.val ≤ 4096) ∧ ∃ b : Blit,
      b = drawSprite s.fb (s.reg x) (s.reg y) ((List.range n.val).map fun k => s.byteAt (effAddr s 0 + k)) ∧
      t = (s.setFb b.grid).setReg 15 (bool2u8 b.collided)
  | .skp x => ∃ k, keyOf (s.reg x) = some k ∧ t = s.setPc (if isDown s k then s.pc + 2 else s.pc)
  | .sknp x => ∃ k, keyOf (s.reg x) = some k ∧ t = s.setPc (if !isDown s k then s.pc + 2 else s.pc)
  | .ldVxDt x => t = s.setReg x s.DT
  | .ldVxK x => t = s.setMode (.waitingKey x)
  | .ldDtVx x => t = s.setDT (s.reg x)
  | .ldStVx x => t = s.setST (s.reg x)
  | .addI x => t = s.setI (s.I + zext16 (s.reg x))
  | .ldF x => t = s.setI (glyphAddr (s.reg x))
  | .ldB x => effAddr s 0 + 3 ≤ 4096 ∧ t = s.putBytes (effAddr s 0) (bcdDigits (s.reg x))
  | .ldMemVx x => effAddr s 0 + (x.val + 1) ≤ 4096 ∧ t = s.putBytes (effAddr s 0) (regsUpTo s x)
  | .ldVxMem x => effAddr s 0 + (x.val + 1) ≤ 4096 ∧
      t = setRegs s 0 ((List.range (x.val + 1)).map fun k => s.byteAt (effAddr s 0 + k))
  | .unrecU0 _ => s.cfg.policy = .ignore ∧ t = s
  | .unrecU8 _ _ _ => s.cfg.policy = .ignore ∧ t = s
  | .unrecUE _ _ => s.cfg.policy = .ignore ∧ t = s
  | .unrecUF _ _ => s.cfg.policy = .ignore ∧ t = s

@[simp] theorem regsUpTo_length (s : State) (x : Reg) : (regsUpTo s x).length = x.val + 1 := by
  simp [regsUpTo]

theorem next_inj {s t : State} : (Host.Outcome.next s : Result State) = .next t ↔ t = s :=
  ⟨fun h => by injection h with h; exact h.symm, fun h => h ▸ rfl⟩

theorem unrecognised_eq_next (w : Word) (s t : State) :
    unrecognised w s = .next t ↔ s.cfg.policy = .ignore ∧ t = s := by
  unfold unrecognised
  split
  · next h => simp [h, eq_comm]
  · next h => simp [h]

theorem execRet_eq_next (s t : State) : exec .ret s = .next t ↔ NextState s t .ret := by
  show andThen (pop s) _ = _ ↔ _
  simp only [NextState]
  rcases pop_cases s with ⟨h, e⟩ | ⟨h, hlt, e⟩ | ⟨h, hge, e⟩
  · simp [e, h]
  · rw [e, andThen_next, next_inj]
    exact ⟨fun ht => ⟨hlt, h, ht⟩, fun ⟨_, _, ht⟩ => ht⟩
  · rw [e, andThen_refused]
    exact ⟨nofun, fun ⟨hlt, _⟩ => by omega⟩

theorem execCall_eq_next (nnn : Addr12) (s t : State) : exec (.call nnn) s = .next t ↔ NextState s t (.call nnn) := by
  show andThen (push s s.pc) _ = _ ↔ _
  simp only [NextState]
  rcases push_cases s s.pc with ⟨h, e⟩ | ⟨h, e⟩
  · rw [e, andThen_next, next_inj]
    exact ⟨fun ht => ⟨h, ht⟩, fun ⟨_, ht⟩ => ht⟩
  · rw [e, andThen_fault]
    exact ⟨nofun, fun ⟨hlt, _⟩ => by omega⟩

/-- What an instruction can do when it does not fault: exactly its next state. -/
theorem exec_eq_next (i : Instr) (s t : State) : exec i s = .next t ↔ NextState s t i := by
  cases i
  case ret => exact execRet_eq_next s t
  case call nnn => exact execCall_eq_next nnn s t
  case seImm x nn => simp only [exec, execSeImm, skipIf_eq, next_inj, NextState]
  case sneImm x nn => simp only [exec, execSneImm, skipIf_eq, next_inj, NextState]
  case seReg x y => simp only [exec, execSeReg, skipIf_eq, next_inj, NextState]
  case sneReg x y => simp only [exec, execSneReg, skipIf_eq, next_inj, NextState]
  case drw x y n =>
    show andThen (readBytes s (effAddr s 0) n.val) _ = _ ↔ _
    rw [readBytes_eq]
    simp only [NextState]
    split
    · next h =>
      rw [andThen_next, next_inj]
      exact ⟨fun ht => ⟨h, _, rfl, ht⟩, fun ⟨_, b, hb, ht⟩ => hb ▸ ht⟩
    · next h => exact ⟨nofun, fun ht => absurd ht.1 h⟩
  case skp x =>
    simp only [exec, execSkp, skipIf_eq, NextState]
    split
    · next h => simp [h]
    · next k h =>
      rw [next_inj]
      exact ⟨fun ht => ⟨k, h, ht⟩, fun ⟨k', hk, ht⟩ => by rw [h] at hk; cases hk; exact ht⟩
  case sknp x =>
    simp only [exec, execSknp, skipIf_eq, NextState]
    split
    · next h => simp [h]
    · next k h =>
      rw [next_inj]
      exact ⟨fun ht => ⟨k, h, ht⟩, fun ⟨k', hk, ht⟩ => by rw [h] at hk; cases hk; exact ht⟩
  case ldB x =>
    show writeBytes s (effAddr s 0) (bcdDigits (s.reg x)) = _ ↔ _
    rw [writeBytes_eq]
    simp only [NextState]
    split
    · next h => rw [next_inj]; exact ⟨fun ht => ⟨h.resolve_left nofun, ht⟩, fun ht => ht.2⟩
    · next h => exact ⟨nofun, fun ht => absurd (.inr ht.1) h⟩
  case ldMemVx x =>
    show writeBytes s (effAddr s 0) (regsUpTo s x) = _ ↔ _
    have hne : regsUpTo s x ≠ [] := fun e => by simpa [e] using regsUpTo_length s x
    rw [writeBytes_eq]
    simp only [NextState, regsUpTo_length]
    split
    · next h => rw [next_inj]; exact ⟨fun ht => ⟨h.resolve_left hne, ht⟩, fun ht => ht.2⟩
    · next h => exact ⟨nofun, fun ht => absurd (.inr ht.1) h⟩
  case ldVxMem x =>
    show andThen (readBytes s (effAddr s 0) (x.val + 1)) _ = _ ↔ _
    rw [readBytes_eq]
    simp only [NextState]
    split
    · next h => rw [andThen_next, next_inj]; exact ⟨fun ht => ⟨h.resolve_left nofun, ht⟩, fun ht => ht.2⟩
    · next h => exact ⟨nofun, fun ht => absurd (.inr ht.1) h⟩
  case unrecU0 => exact unrecognised_eq_next _ s t
  case unrecU8 => exact unrecognised_eq_next _ s t
  case unrecUE => exact unrecognised_eq_next _ s t
  case unrecUF => exact unrecognised_eq_next _ s t
  all_goals exact next_inj

/-- What a step can do when it does not stop: nothing while waiting, and else the fetched instruction's next state. -/
theorem step_eq_next (s t : State) : step s = .next t ↔
    ((∃ x, s.mode = .waitingKey x) ∧ t = s) ∨
    (s.mode = .running ∧ s.pc.toNat + 1 < 4096 ∧
      NextState (advance s) t (decodeWord (wordOfBytes (s.byteAt s.pc.toNat) (s.byteAt (s.pc.toNat + 1))))) := by
  unfold step
  split
  · next f h => simp [h]
  · next x h => simp [h, eq_comm]
  · next h =>
    rw [fetchInsn_eq]
    split
    · next hp => simp [h, hp, exec_eq_next]
    · next hp => simp [h, hp]

end Sys2Proof.Machine
end

