-- ==== Sys2Proof/Laws/FrameBuffer.lean ====
section
/-! SUPPORT. Pixels of the framebuffer, and what one row of a sprite does to them. -/

namespace Sys2Proof.Machine

namespace Grid

theorem pixel_setTo (g : Grid) (r r' : Fin 32) (c c' : Fin 64) (b : Bool) :
    (g.setTo r c b).pixel r' c' = if r' = r ∧ c' = c then b else g.pixel r' c' := by
  simp only [pixel, setTo, Vector.getElem_set, Fin.ext_iff]
  by_cases hr : r.val = r'.val
  · by_cases hc : c.val = c'.val
    · simp [hr, hc]
    · simp [hr, hc, Ne.symm hc]
  · simp [hr, Ne.symm hr]

/-- Grids with the same pixels are equal. -/
theorem ext_pixel {g h : Grid} (e : ∀ r c, g.pixel r c = h.pixel r c) : g = h := by
  apply Vector.ext
  intro r hr
  apply Vector.ext
  intro c hc
  exact e ⟨r, hr⟩ ⟨c, hc⟩

@[simp] theorem pixel_blank (r : Fin 32) (c : Fin 64) : Grid.blank.pixel r c = false := by
  simp [pixel, blank]

end Grid

namespace Blit

theorem toggle_pixel (t : Blit) (r r' : Fin 32) (c c' : Fin 64) :
    (t.toggle r c).grid.pixel r' c' = (t.grid.pixel r' c' != decide (r' = r ∧ c' = c)) := by
  rw [toggle, Grid.pixel_setTo]
  split
  · next h => simp [h]
  · next h => simp [h]

@[simp] theorem toggle_collided (t : Blit) (r : Fin 32) (c : Fin 64) :
    (t.toggle r c).collided = (t.collided || t.grid.pixel r c) := rfl

theorem colOf_inj {x i j : Nat} (hi : i < 64) (hj : j < 64) (h : colOf (x + i) = colOf (x + j)) : i = j := by
  have : (x + i) % 64 = (x + j) % 64 := Fin.ext_iff.1 h
  omega

/-- The first `n` bit-columns of a sprite row toggle the pixels under their 1 bits, each once. -/
theorem columns_pixel (t : Blit) (x y : Nat) (row : Byte) {n : Nat} (hn : n ≤ 8) (r : Fin 32) (c : Fin 64) :
    (t.columns x y row n).grid.pixel r c =
      (t.grid.pixel r c !=
        (decide (r = rowOf y) && (List.range n).any fun j => row.getLsbD (7 - j) && decide (c = colOf (x + j)))) := by
  induction n with
  | zero => simp [columns]
  | succ n ih =>
    have ih := ih (by omega)
    rw [columns]
    by_cases hb : row.getLsbD (7 - n)
    · simp only [hb, if_true, toggle_pixel, ih, List.range_succ, List.any_append]
      by_cases hr : r = rowOf y
      · by_cases hc : c = colOf (x + n)
        · have : ((List.range n).any fun j => row.getLsbD (7 - j) && decide (c = colOf (x + j))) = false := by
            rw [List.any_eq_false]
            intro j hj
            have hj := List.mem_range.1 hj
            have : c ≠ colOf (x + j) := fun e => by
              have := colOf_inj (by omega) (by omega) (hc.symm.trans e)
              omega
            simp [this]
          rw [this]
          simp [hr, hc, hb]
        · simp [hr, hc, hb]
      · simp [hr]
    · simp only [List.range_succ, List.any_append]
      simp [hb]
      exact ih

/-- The first `n` bit-columns of a sprite row collide iff one of their 1 bits lies over a pixel that was on. -/
theorem columns_collided (t : Blit) (x y : Nat) (row : Byte) {n : Nat} (hn : n ≤ 8) :
    (t.columns x y row n).collided =
      (t.collided || (List.range n).any fun j => row.getLsbD (7 - j) && t.grid.pixel (rowOf y) (colOf (x + j))) := by
  induction n with
  | zero => simp [columns]
  | succ n ih =>
    have ih := ih (by omega)
    rw [columns]
    by_cases hb : row.getLsbD (7 - n)
    · have : (t.columns x y row n).grid.pixel (rowOf y) (colOf (x + n)) = t.grid.pixel (rowOf y) (colOf (x + n)) := by
        rw [columns_pixel _ _ _ _ (by omega)]
        have : ((List.range n).any fun j => row.getLsbD (7 - j) && decide (colOf (x + n) = colOf (x + j))) = false := by
          rw [List.any_eq_false]
          intro j hj
          have hj := List.mem_range.1 hj
          have : colOf (x + n) ≠ colOf (x + j) := fun e => by
            have := colOf_inj (by omega) (by omega) e
            omega
          simp [this]
        rw [this]
        simp
      simp only [hb, if_true, toggle_collided, ih, this, List.range_succ, List.any_append]
      simp [hb, Bool.or_assoc]
    · simp only [List.range_succ, List.any_append]
      simp [hb]
      exact ih

end Blit

end Sys2Proof.Machine
end

