-- ==== Sys2Proof/Laws/PerInstr.lean ====
section
/-! SUPPORT. For every instruction: the bits of its word that spec/opcode_table.json fixes are those of its row. -/

namespace Sys2Proof.Laws.TableRow

/-- The `mask` of the instruction's row in spec/opcode_table.json. -/
def mask : Instr → Word
  | .cls => 0xFFFF
  | .ret => 0xFFFF
  | .jp _ => 0xF000
  | .call _ => 0xF000
  | .seImm _ _ => 0xF000
  | .sneImm _ _ => 0xF000
  | .seReg _ _ => 0xF000
  | .ldImm _ _ => 0xF000
  | .addImm _ _ => 0xF000
  | .ldReg _ _ => 0xF00F
  | .orReg _ _ => 0xF00F
  | .andReg _ _ => 0xF00F
  | .xorReg _ _ => 0xF00F
  | .addReg _ _ => 0xF00F
  | .sub _ _ => 0xF00F
  | .shr _ _ => 0xF00F
  | .subn _ _ => 0xF00F
  | .shl _ _ => 0xF00F
  | .sneReg _ _ => 0xF000
  | .ldI _ => 0xF000
  | .jpV0 _ => 0xF000
  | .rnd _ _ => 0xF000
  | .drw _ _ _ => 0xF000
  | .skp _ => 0xF0FF
  | .sknp _ => 0xF0FF
  | .ldVxDt _ => 0xF0FF
  | .ldVxK _ => 0xF0FF
  | .ldDtVx _ => 0xF0FF
  | .ldStVx _ => 0xF0FF
  | .addI _ => 0xF0FF
  | .ldF _ => 0xF0FF
  | .ldB _ => 0xF0FF
  | .ldMemVx _ => 0xF0FF
  | .ldVxMem _ => 0xF0FF
  | .unrecU0 _ => 0xF000
  | .unrecU8 _ _ _ => 0xF000
  | .unrecUE _ _ => 0xF000
  | .unrecUF _ _ => 0xF000

/-- The `match` of the instruction's row in spec/opcode_table.json. -/
def pattern : Instr → Word
  | .cls => 0x00E0
  | .ret => 0x00EE
  | .jp _ => 0x1000
  | .call _ => 0x2000
  | .seImm _ _ => 0x3000
  | .sneImm _ _ => 0x4000
  | .seReg _ _ => 0x5000
  | .ldImm _ _ => 0x6000
  | .addImm _ _ => 0x7000
  | .ldReg _ _ => 0x8000
  | .orReg _ _ => 0x8001
  | .andReg _ _ => 0x8002
  | .xorReg _ _ => 0x8003
  | .addReg _ _ => 0x8004
  | .sub _ _ => 0x8005
  | .shr _ _ => 0x8006
  | .subn _ _ => 0x8007
  | .shl _ _ => 0x800E
  | .sneReg _ _ => 0x9000
  | .ldI _ => 0xA000
  | .jpV0 _ => 0xB000
  | .rnd _ _ => 0xC000
  | .drw _ _ _ => 0xD000
  | .skp _ => 0xE09E
  | .sknp _ => 0xE0A1
  | .ldVxDt _ => 0xF007
  | .ldVxK _ => 0xF00A
  | .ldDtVx _ => 0xF015
  | .ldStVx _ => 0xF018
  | .addI _ => 0xF01E
  | .ldF _ => 0xF029
  | .ldB _ => 0xF033
  | .ldMemVx _ => 0xF055
  | .ldVxMem _ => 0xF065
  | .unrecU0 _ => 0x0000
  | .unrecU8 _ _ _ => 0x8000
  | .unrecUE _ _ => 0xE000
  | .unrecUF _ _ => 0xF000

/-- The word of a well-formed instruction matches the row of the table that it stands for. -/
def Statement (i : Instr) : Prop :=
  i.wellFormed = true → encode i &&& mask i = pattern i

theorem formatA_op (op : BitVec 4) (nnn : Addr12) : formatA op nnn &&& 0xF000 = formatA op 0 := by
  apply BitVec.eq_of_getLsbD_eq
  intro k hk
  rw [BitVec.getLsbD_and]
  simp only [formatA_bit]
  interval_cases k <;> simp

theorem formatRI_op (op : BitVec 4) (x : Reg) (nn : Byte) : formatRI op x nn &&& 0xF000 = formatA op 0 := by
  apply BitVec.eq_of_getLsbD_eq
  intro k hk
  rw [BitVec.getLsbD_and]
  simp only [formatRI_bit, formatA_bit]
  interval_cases k <;> simp

theorem formatRI_op_nn (op : BitVec 4) (x : Reg) (nn : Byte) : formatRI op x nn &&& 0xF0FF = formatRI op 0 nn := by
  apply BitVec.eq_of_getLsbD_eq
  intro k hk
  rw [BitVec.getLsbD_and]
  simp only [formatRI_bit]
  interval_cases k <;> simp [nibble]

theorem formatRR_op (op : BitVec 4) (x y : Reg) (n : BitVec 4) : formatRR op x y n &&& 0xF000 = formatA op 0 := by
  apply BitVec.eq_of_getLsbD_eq
  intro k hk
  rw [BitVec.getLsbD_and]
  simp only [formatRR_bit, formatA_bit]
  interval_cases k <;> simp

theorem formatRR_op_n (op : BitVec 4) (x y : Reg) (n : BitVec 4) :
    formatRR op x y n &&& 0xF00F = formatRR op 0 0 n := by
  apply BitVec.eq_of_getLsbD_eq
  intro k hk
  rw [BitVec.getLsbD_and]
  simp only [formatRR_bit]
  interval_cases k <;> simp [nibble]

theorem cls : Statement .cls := fun _ => rfl
theorem ret : Statement .ret := fun _ => rfl
theorem jp (nnn : Addr12) : Statement (.jp nnn) := fun _ => (formatA_op ..).trans rfl
theorem call (nnn : Addr12) : Statement (.call nnn) := fun _ => (formatA_op ..).trans rfl
theorem seImm (x : Reg) (nn : Byte) : Statement (.seImm x nn) := fun _ => (formatRI_op ..).trans rfl
theorem sneImm (x : Reg) (nn : Byte) : Statement (.sneImm x nn) := fun _ => (formatRI_op ..).trans rfl
theorem seReg (x : Reg) (y : Reg) : Statement (.seReg x y) := fun _ => (formatRR_op ..).trans rfl
theorem ldImm (x : Reg) (nn : Byte) : Statement (.ldImm x nn) := fun _ => (formatRI_op ..).trans rfl
theorem addImm (x : Reg) (nn : Byte) : Statement (.addImm x nn) := fun _ => (formatRI_op ..).trans rfl
theorem ldReg (x : Reg) (y : Reg) : Statement (.ldReg x y) := fun _ => (formatRR_op_n ..).trans rfl
theorem orReg (x : Reg) (y : Reg) : Statement (.orReg x y) := fun _ => (formatRR_op_n ..).trans rfl
theorem andReg (x : Reg) (y : Reg) : Statement (.andReg x y) := fun _ => (formatRR_op_n ..).trans rfl
theorem xorReg (x : Reg) (y : Reg) : Statement (.xorReg x y) := fun _ => (formatRR_op_n ..).trans rfl
theorem addReg (x : Reg) (y : Reg) : Statement (.addReg x y) := fun _ => (formatRR_op_n ..).trans rfl
theorem sub (x : Reg) (y : Reg) : Statement (.sub x y) := fun _ => (formatRR_op_n ..).trans rfl
theorem shr (x : Reg) (y : Reg) : Statement (.shr x y) := fun _ => (formatRR_op_n ..).trans rfl
theorem subn (x : Reg) (y : Reg) : Statement (.subn x y) := fun _ => (formatRR_op_n ..).trans rfl
theorem shl (x : Reg) (y : Reg) : Statement (.shl x y) := fun _ => (formatRR_op_n ..).trans rfl
theorem sneReg (x : Reg) (y : Reg) : Statement (.sneReg x y) := fun _ => (formatRR_op ..).trans rfl
theorem ldI (nnn : Addr12) : Statement (.ldI nnn) := fun _ => (formatA_op ..).trans rfl
theorem jpV0 (nnn : Addr12) : Statement (.jpV0 nnn) := fun _ => (formatA_op ..).trans rfl
theorem rnd (x : Reg) (nn : Byte) : Statement (.rnd x nn) := fun _ => (formatRI_op ..).trans rfl
theorem drw (x : Reg) (y : Reg) (n : Fin 16) : Statement (.drw x y n) := fun _ => (formatRR_op ..).trans rfl
theorem skp (x : Reg) : Statement (.skp x) := fun _ => (formatRI_op_nn ..).trans rfl
theorem sknp (x : Reg) : Statement (.sknp x) := fun _ => (formatRI_op_nn ..).trans rfl
theorem ldVxDt (x : Reg) : Statement (.ldVxDt x) := fun _ => (formatRI_op_nn ..).trans rfl
theorem ldVxK (x : Reg) : Statement (.ldVxK x) := fun _ => (formatRI_op_nn ..).trans rfl
theorem ldDtVx (x : Reg) : Statement (.ldDtVx x) := fun _ => (formatRI_op_nn ..).trans rfl
theorem ldStVx (x : Reg) : Statement (.ldStVx x) := fun _ => (formatRI_op_nn ..).trans rfl
theorem addI (x : Reg) : Statement (.addI x) := fun _ => (formatRI_op_nn ..).trans rfl
theorem ldF (x : Reg) : Statement (.ldF x) := fun _ => (formatRI_op_nn ..).trans rfl
theorem ldB (x : Reg) : Statement (.ldB x) := fun _ => (formatRI_op_nn ..).trans rfl
theorem ldMemVx (x : Reg) : Statement (.ldMemVx x) := fun _ => (formatRI_op_nn ..).trans rfl
theorem ldVxMem (x : Reg) : Statement (.ldVxMem x) := fun _ => (formatRI_op_nn ..).trans rfl
theorem unrecU0 (nnn : Addr12) : Statement (.unrecU0 nnn) := fun _ => (formatA_op ..).trans rfl
theorem unrecU8 (x : Reg) (y : Reg) (n : BitVec 4) : Statement (.unrecU8 x y n) := fun _ => (formatRR_op ..).trans rfl
theorem unrecUE (x : Reg) (nn : Byte) : Statement (.unrecUE x nn) := fun _ => (formatRI_op ..).trans rfl
theorem unrecUF (x : Reg) (nn : Byte) : Statement (.unrecUF x nn) := fun _ => (formatRI_op ..).trans rfl

end Sys2Proof.Laws.TableRow
end

