-- ==== Sys2Proof/Tests/Slice0.lean ====
section
/-! SUPPORT. The model's own tests: decoding of words written out from the spec's encodings, the well-formedness smoke test,
one-step vectors whose expected results are those of spec/95_test_vectors.md (its number stands in the name or the
comment), and a witness for the hypotheses of each statement. -/

namespace Sys2Proof.Tests

open Sys2Proof.Machine

/-! ### Helpers -/

/-- What a next state shows; nothing for a fault or a refusal. -/
def got {α β : Type} (r : Result α) (f : α → β) : Option β :=
  match r with
  | .next t => some (f t)
  | .fault _ => none
  | .refused _ => none

/-- The fault of an answer. -/
def faulted {α : Type} (r : Result α) : Option Fault :=
  match r with
  | .next _ => none
  | .fault f => some f
  | .refused _ => none

/-- One step on the word `w`, placed at pc. -/
def run (s : State) (w : Nat) : Result State := step (s.withFetchWord 16 w)

/-- The reset state with some registers set. -/
def regs (l : List (Reg × Byte)) : State := l.foldl (fun s p => s.setReg p.1 p.2) State.reset

/-- A state with bytes stored from an address on, which I holds. -/
def mem (s : State) (i : Word) (bytes : List Byte) : State := (s.setI i).putBytes i.toNat bytes

/-- The pixels of one row that are on. -/
def onIn (s : State) (r : Fin 32) : List Nat :=
  ((List.finRange 64).filter fun c => Grid.pixel s.fb r c).map Fin.val

/-! ### Decoding: each word is written out from the patterns of R96 and the fields of R93 -/

theorem test_decode_family0 : decodeWord 0x00E0 = .cls ∧ decodeWord 0x00EE = .ret ∧
    decodeWord 0x00E1 = .unrecU0 0x0E1 := by decide
theorem test_decode_jumps : decodeWord 0x1234 = .jp 0x234 ∧ decodeWord 0x2ABC = .call 0xABC ∧
    decodeWord 0xBFFF = .jpV0 0xFFF := by decide
theorem test_decode_skips : decodeWord 0x3A42 = .seImm 0xA 0x42 ∧ decodeWord 0x4B43 = .sneImm 0xB 0x43 ∧
    decodeWord 0x5120 = .seReg 1 2 ∧ decodeWord 0x9AB0 = .sneReg 0xA 0xB := by decide
theorem test_decode_low_nibble_ignored : decodeWord 0x5121 = .seReg 1 2 ∧ decodeWord 0x912F = .sneReg 1 2 := by decide
theorem test_decode_immediates : decodeWord 0x6A2F = .ldImm 0xA 0x2F ∧ decodeWord 0x7120 = .addImm 1 0x20 ∧
    decodeWord 0xC30F = .rnd 3 0x0F := by decide
theorem test_decode_family8 : decodeWord 0x8120 = .ldReg 1 2 ∧ decodeWord 0x8121 = .orReg 1 2 ∧
    decodeWord 0x8122 = .andReg 1 2 ∧ decodeWord 0x8123 = .xorReg 1 2 ∧ decodeWord 0x8124 = .addReg 1 2 ∧
    decodeWord 0x8125 = .sub 1 2 ∧ decodeWord 0x8126 = .shr 1 2 ∧ decodeWord 0x8127 = .subn 1 2 ∧
    decodeWord 0x812E = .shl 1 2 ∧ decodeWord 0x812F = .unrecU8 1 2 0xF := by decide
theorem test_decode_index_and_draw : decodeWord 0xA2F0 = .ldI 0x2F0 ∧ decodeWord 0xD125 = .drw 1 2 5 := by decide
theorem test_decode_familyE : decodeWord 0xE59E = .skp 5 ∧ decodeWord 0xE5A1 = .sknp 5 ∧
    decodeWord 0xE09F = .unrecUE 0 0x9F := by decide
theorem test_decode_familyF : decodeWord 0xF407 = .ldVxDt 4 ∧ decodeWord 0xF30A = .ldVxK 3 ∧
    decodeWord 0xF415 = .ldDtVx 4 ∧ decodeWord 0xF418 = .ldStVx 4 ∧ decodeWord 0xF21E = .addI 2 ∧
    decodeWord 0xF129 = .ldF 1 ∧ decodeWord 0xF133 = .ldB 1 ∧ decodeWord 0xF255 = .ldMemVx 2 ∧
    decodeWord 0xF165 = .ldVxMem 1 ∧ decodeWord 0xF000 = .unrecUF 0 0x00 := by decide
theorem test_decode_table_word : decodeTableWord 16 0x1234 = some (.jp 0x234) ∧
    decodeTableWord 16 0xFFFF = some (.unrecUF 0xF 0xFF) ∧ decodeTableWord 8 0xE0 = some .cls := by decide
theorem test_decode_truncated : decodeBytes [] = .error .truncated ∧ decodeBytes [0x12] = .error .truncated := by
  constructor <;> rfl

/-! ### Well-formedness refuses each class's own instructions (R100) -/

theorem test_illformed_U0 : (Instr.unrecU0 0x0E0).wellFormed = false ∧ (Instr.unrecU0 0x0EE).wellFormed = false := by
  decide
theorem test_illformed_U8 : (Instr.unrecU8 0 0 0x0).wellFormed = false ∧
    (Instr.unrecU8 0 0 0xE).wellFormed = false := by decide
theorem test_illformed_UE : (Instr.unrecUE 0 0x9E).wellFormed = false ∧
    (Instr.unrecUE 0 0xA1).wellFormed = false := by decide
theorem test_illformed_UF : (Instr.unrecUF 0 0x07).wellFormed = false ∧
    (Instr.unrecUF 0 0x65).wellFormed = false := by decide

/-! ### Fetch and step (vectors E1 to E14) -/

theorem test_E1_big_endian_fetch : got (run State.reset 0x1234) (·.pc) = some 0x234 := by decide
theorem test_E11_odd_fetch : got (run (State.reset.setPc 0x201) 0x6011) (fun t => (t.reg 0, t.pc)) =
    some (0x11, 0x203) := by decide
theorem test_E12_last_word : got (run (State.reset.setPc 0xFFE) 0x6001) (fun t => (t.reg 0, t.pc)) =
    some (0x01, 0x1000) := by decide
theorem test_E13_fetch_at_FFF : faulted (step (State.reset.setPc 0xFFF)) = some (.fetchOob 0xFFF) := by decide
theorem test_E14_fetch_at_1000 : faulted (step (State.reset.setPc 0x1000)) = some (.fetchOob 0x1000) := by decide

/-! ### Control flow (vectors B1 to B15) -/

theorem test_B3_jump_offset : got (run (regs [(0, 0xFF)]) 0xBFFF) (·.pc) = some 0x10FE := by decide
theorem test_B5_underflow : faulted (run State.reset 0x00EE) = some (.stackUnderflow 0x200) := by decide
theorem test_B6_sixteenth_call : got (run (State.reset.setSP 0x0E) 0x2400) (fun t => (t.SP, t.stack[15], t.pc)) =
    some (0x0F, 0x202, 0x400) := by decide
theorem test_B7_overflow : faulted (run (State.reset.setSP 0x0F) 0x2400) = some (.stackOverflow 0x202 0x200) := by
  decide
theorem test_W6_first_call : got (run State.reset 0x2400) (fun t => (t.SP, t.stack[0], t.pc)) =
    some (0x00, 0x202, 0x400) := by decide
theorem test_B9_last_return : got (run ((State.reset.setSP 0).setSlot 0 0x302) 0x00EE) (fun t => (t.pc, t.SP)) =
    some (0x302, 0xFF) := by decide
theorem test_W9_skip_taken : got (run (regs [(3, 0x42)]) 0x3342) (·.pc) = some 0x204 := by decide
theorem test_W9_skip_not_taken : got (run (regs [(3, 0x41)]) 0x3342) (·.pc) = some 0x202 := by decide
theorem test_B11_skip_ne : got (run (regs [(3, 0x42)]) 0x4342) (·.pc) = some 0x202 := by decide
theorem test_E9_skip_eq_regs : got (run (regs [(1, 7), (2, 7)]) 0x5121) (·.pc) = some 0x204 := by decide
theorem test_E10_skip_ne_regs : got (run (regs [(1, 7), (2, 8)]) 0x912F) (·.pc) = some 0x204 := by decide

/-! ### Unrecognised words (vectors E2 to E8) -/

theorem test_E4_U8_is_a_noop : got (run State.reset 0x8008) (fun t => (t.reg 15, t.pc)) = some (0, 0x202) := by decide
theorem test_E8_policy_fault :
    faulted (run { State.reset with cfg := { Config.standard with policy := .fault } } 0x8008) =
      some (.unknownOpcode 0x8008 0x200) := by decide

/-! ### ALU (vectors A1 to A29) -/

theorem test_A1_load : got (run State.reset 0x6A2F) (·.reg 0xA) = some 0x2F := by decide
theorem test_A2_add_imm_no_flag : got (run (regs [(1, 0xFF), (15, 5)]) 0x7101) (fun t => (t.reg 1, t.reg 15)) =
    some (0x00, 0x05) := by decide
theorem test_A4_copy : got (run (regs [(2, 0x99)]) 0x8120) (·.reg 1) = some 0x99 := by decide
theorem test_A5_or_into_VF : got (run (regs [(15, 0x0F), (2, 0xF0)]) 0x8F21) (·.reg 15) = some 0xFF := by decide
theorem test_A6_and : got (run (regs [(1, 0x3C), (2, 0x0F), (15, 1)]) 0x8122) (fun t => (t.reg 1, t.reg 15)) =
    some (0x0C, 1) := by decide
theorem test_A7_xor : got (run (regs [(1, 0xFF), (2, 0x0F)]) 0x8123) (·.reg 1) = some 0xF0 := by decide
theorem test_W1_add_carry : got (run (regs [(1, 0xC8), (2, 0x64)]) 0x8124) (fun t => (t.reg 1, t.reg 15)) =
    some (0x2C, 1) := by decide
theorem test_A12_flag_over_result : got (run (regs [(15, 0x10), (1, 0xF5)]) 0x8F14) (·.reg 15) = some 1 := by decide
theorem test_W2_sub_equal : got (run (regs [(1, 5), (2, 5), (15, 1)]) 0x8125) (fun t => (t.reg 1, t.reg 15)) =
    some (0, 0) := by decide
theorem test_W2_sub_wraps : got (run (regs [(1, 3), (2, 5)]) 0x8125) (fun t => (t.reg 1, t.reg 15)) =
    some (0xFE, 0) := by decide
theorem test_A22_shr_ignores_y : got (run (regs [(1, 4), (2, 0xFF)]) 0x8126) (fun t => (t.reg 1, t.reg 15)) =
    some (2, 0) := by decide
theorem test_A23_shr_VF : got (run (regs [(15, 3)]) 0x8F06) (·.reg 15) = some 1 := by decide
theorem test_W2_subn : got (run (regs [(1, 3), (2, 5)]) 0x8127) (fun t => (t.reg 1, t.reg 15)) = some (2, 1) := by
  decide
theorem test_A26_shl_ignores_y : got (run (regs [(1, 0xFF)]) 0x812E) (fun t => (t.reg 1, t.reg 15)) =
    some (0xFE, 1) := by decide
/-- A27: every draw masked by 0 is 0. -/
theorem test_A27_rnd_mask_zero : got (run (regs [(3, 9)]) 0xC300) (fun t => (t.draws, t.pc)) = some (1, 0x202) := by
  decide

/-! ### Index and memory (vectors M1 to M17) -/

theorem test_M1_load_index : got (run State.reset 0xAFFF) (·.I) = some 0x0FFF := by decide
theorem test_M2_add_index_no_flag : got (run ((regs [(2, 5)]).setI 0x0FFE) 0xF21E) (fun t => (t.I, t.reg 15)) =
    some (0x1003, 0) := by decide
theorem test_M3_add_index_wraps : got (run ((regs [(0, 2)]).setI 0xFFFF) 0xF01E) (·.I) = some 0x0001 := by decide
theorem test_M4_glyph_low_nibble : got (run (regs [(0, 0x1F)]) 0xF029) (·.I) = some 0x004B := by decide
theorem test_W7_bcd : got (run ((regs [(1, 234)]).setI 0x300) 0xF133)
    (fun t => (t.byteAt 0x300, t.byteAt 0x301, t.byteAt 0x302, t.I)) = some (2, 3, 4, 0x300) := by decide
theorem test_M9_bcd_third_write_faults : faulted (run ((regs [(1, 0x10)]).setI 0xFFE) 0xF133) =
    some (.memWriteOob 0x1000 0x200) := by decide
theorem test_R184_store : got (run ((regs [(0, 1), (1, 2), (2, 3), (3, 4)]).setI 0x400) 0xF255)
    (fun t => (t.byteAt 0x400, t.byteAt 0x401, t.byteAt 0x402, t.byteAt 0x403, t.I)) =
      some (1, 2, 3, 0, 0x400) := by decide
/-- M17: storing into the font is no fault, and storing back what creation put there leaves memory canonical. -/
theorem test_M17_font_is_writable : got (run ((regs [(0, 0x11)]).setI 0) 0xF055) (·.byteAt 0) = some 0x11 ∧
    got (run ((regs [(0, 0xF0)]).setI 0) 0xF055) (fun t => t.mem.length) = some 2 := by decide
theorem test_M16_load_glyph : got (run (State.reset.setI 0) 0xF465)
    (fun t => (t.reg 0, t.reg 1, t.reg 4, t.reg 5)) = some (0xF0, 0x90, 0xF0, 0) := by decide
theorem test_M15_load_faults : faulted (run (State.reset.setI 0xFF1) 0xFF65) = some (.memReadOob 0x1000 0x200) := by
  decide

/-! ### Display (vectors D1 to D12) -/

theorem test_W5_draw_wraps : got (run (mem (regs [(0, 63)]) 0x300 [0xC0]) 0xD011) (fun t => (onIn t 0, t.reg 15)) =
    some ([0, 63], 0) := by decide +kernel
theorem test_D6_collision : got (run ((mem State.reset 0x300 [0xC0]).setFb (Grid.setTo Grid.blank 0 0 true)) 0xD011)
    (fun t => (onIn t 0, t.reg 15)) = some ([1], 1) := by decide +kernel
theorem test_D1_clear : got (run (State.reset.setFb (Grid.setTo Grid.blank 31 63 true)) 0x00E0) (onIn · 31) =
    some [] := by decide +kernel
theorem test_D11_query_out_of_range : faulted (hostCall (.isSet 64 0) State.reset) = some (.pixelOob 64 0) := by decide

/-! ### Keyboard (vectors K1 to K15) -/

theorem test_K1_skp : got (run ((regs [(5, 0x0A)]).setKey 0xA true) 0xE59E) (·.pc) = some 0x204 := by decide
theorem test_K5_skp_faults : faulted (run (regs [(5, 0x10)]) 0xE59E) = some (.keyIndexOob 0x10 0x200) := by decide
theorem test_K3_sknp : got (run (regs [(5, 0x0A)]) 0xE5A1) (·.pc) = some 0x204 := by decide
theorem test_K6_sknp_faults : faulted (run (regs [(5, 0xFF)]) 0xE5A1) = some (.keyIndexOob 0xFF 0x200) := by decide
theorem test_K11_wait_ignores_held_key : got (run (State.reset.setKey 3 true) 0xF00A) (fun t => (t.mode, t.pc)) =
    some (.waitingKey 0, 0x202) := by decide
theorem test_K10_key_down_ends_wait : got (hostCall (.setDown 7) (State.reset.setMode (.waitingKey 3)))
    (fun p => (p.1.reg 3, p.1.mode, isDown p.1 7)) = some (7, .running, true) := by decide
theorem test_K8_wait_step : got (hostCall .step (State.reset.setMode (.waitingKey 3))) (fun p => (p.1.pc, p.2)) =
    some (0x200, .waiting) := by decide
theorem test_K15_first_match : KeyMap.mapKey { ids := #v[9, 9, 9, 9, 5, 9, 9, 9, 9, 5, 9, 9, 9, 9, 9, 9] } 5 = some 4 := by
  decide

/-! ### Timers (vectors T1 to T7) and creation (I1, I3) -/

theorem test_T1_read_dt : got (run (State.reset.setDT 0x3C) 0xF407) (·.reg 4) = some 0x3C := by decide
theorem test_T2_set_dt : got (run (regs [(4, 0x3C)]) 0xF415) (fun t => (t.DT, t.ST)) = some (0x3C, 0) := by decide
theorem test_T3_set_st : got (run (regs [(4, 0x02)]) 0xF418) (fun t => (t.DT, t.ST)) = some (0, 0x02) := by decide
theorem test_T5_decay : got (hostCall .decay ((State.reset.setDT 5).setST 1)) (fun p => (p.1.DT, p.1.ST)) =
    some (4, 0) := by decide
theorem test_I1_create : got (create Config.standard [0x12, 0x00])
    (fun t => (t.pc, t.byteAt 0x200, t.byteAt 0, t.byteAt 0x4F, t.byteAt 0x50, t.SP)) =
      some (0x200, 0x12, 0xF0, 0x80, 0, 0xFF) := by decide

/-! ### Witnesses: the hypotheses of each statement are met, each clause at a boundary of its range -/

/-- A state that is not the reset state, with two calls outstanding, for the invariant. -/
def busy : State := ((State.reset.setSP 1).setPc 0x10FE).setSlot 1 0x1000

theorem busy_inv : busy.Inv where
  spLegal := .inr (by decide)
  memWf := by decide
  pcBound := by decide
  slotBound := by decide

theorem witness_DecodeOfEncodeGivesBack : (Instr.unrecU8 1 2 0x8).wellFormed = true ∧
    (Instr.drw 15 15 15).wellFormed = true := by decide
theorem witness_StepRunsTheDecodedInstruction :
    (let s := (State.reset.setPc 0xFFE).withFetchWord 16 0x6001
     s.mode = .running ∧ s.pc.toNat + 1 < 4096 ∧ s.byteAt s.pc.toNat = 0x60 ∧ s.byteAt (s.pc.toNat + 1) = 0x01 ∧
       decodeWord 0x6001 = .ldImm 0 1) ∧
    (4096 ≤ (State.reset.setPc 0xFFF).pc.toNat + 1 ∧ (State.reset.setPc 0xFFF).mode = .running) ∧
    (State.reset.setMode (.waitingKey 15)).mode = .waitingKey 15 ∧
    (State.reset.setMode (.halted (.fetchOob 0))).mode = .halted (.fetchOob 0) := by decide
theorem witness_StepRuns_next : got (step ((State.reset.setPc 0xFFE).withFetchWord 16 0x6001)) (·.pc) =
    some 0x1000 := by decide
theorem witness_DecoderTakesTwoBytes : got (fetchInsn (State.reset.setPc 0xFFE)) id = some 0 := by decide
theorem witness_FetchIsBigEndianAndBoundsChecked :
    (State.reset.setPc 0xFFE).pc.toNat + 1 < 4096 ∧ 4096 ≤ (State.reset.setPc 0xFFF).pc.toNat + 1 := by decide
theorem witness_DataAccessIsBoundsChecked : Memory.wf busy.cfg.font busy.mem = true ∧ 4095 < 4096 ∧ 4096 ≤ 4096 := by
  decide
theorem witness_PcAfterEveryStep :
    got (step (State.reset.withFetchWord 16 0x1FFF)) (·.pc) = some 0xFFF ∧
    got (fetchInsn (State.reset.withFetchWord 16 0x1FFF)) id = some 0x1FFF ∧
    got (step (State.reset.withFetchWord 16 0xF30A)) (·.mode) = some (.waitingKey 3) ∧
    got (step (State.reset.setMode (.waitingKey 0))) (·.pc) = some 0x200 := by decide
theorem witness_SelfJumpChangesNothing : SelfJump (State.reset.withFetchWord 16 0x1200) :=
  ⟨rfl, 0x200, by rfl, by decide⟩
theorem witness_ReturnPopsTheTopSlot : (State.reset.setSP 15).SP.toNat < 16 ∧ (State.reset.setSP 0).SP.toNat < 16 ∧
    State.reset.SP = 0xFF := by decide
theorem witness_JumpSetsPc : State.reset.mode = .running ∧ (0xFFF : Addr12) = 0xFFF ∧
    got (hostCall (.setDown 0) State.reset) (·.1.pc) = some 0x200 := by decide
theorem witness_SkipsOnImmediate : State.reset.mode = .running ∧ State.reset.reg 0 = 0 ∧
    0xFFE < ((State.reset.setPc 0xFFE).pc + 2).toNat := by decide
theorem witness_CallPushesTheAdvancedPc : State.reset.SP = 0xFF ∧ (State.reset.setSP 14).SP.toNat < 15 ∧
    (State.reset.setSP 15).SP.toNat = 15 := by decide
theorem witness_CallThenReturnComesBack : State.reset.SP = 0xFF ∧ (State.reset.setSP 14).SP.toNat < 15 ∧
    (15 : Fin 16).val = ((State.reset.setSP 14).SP + 1).toNat ∧ (0 : Fin 16).val ≠ ((State.reset.setSP 14).SP + 1).toNat := by
  decide
theorem witness_StackHoldsSixteenAddresses : State.reset.SP = 0xFF ∧ (List.replicate 16 (0 : Word)).length ≤ 16 ∧
    16 < (List.replicate 17 (0 : Word)).length := by decide
theorem witness_UnrecognisedWordsIgnoredOrFault : State.reset.cfg.policy = .ignore ∧
    ({ State.reset with cfg := { Config.standard with policy := .fault } } : State).cfg.policy = .fault ∧
    (∃ nnn, Instr.unrecU0 0 = .unrecU0 nnn) := ⟨rfl, rfl, 0, rfl⟩
theorem witness_DecimalDigitsAreStored : Memory.wf busy.cfg.font busy.mem = true ∧
    effAddr (State.reset.setI 0xFFD) 0 + 3 ≤ 4096 ∧ 4096 < effAddr (State.reset.setI 0xFFE) 0 + 3 := by decide
theorem witness_RegistersAreStored : Memory.wf busy.cfg.font busy.mem = true ∧
    effAddr (State.reset.setI 0xFF0) 15 < 4096 ∧ 4096 ≤ effAddr (State.reset.setI 0xFF1) 15 := by decide
theorem witness_RegistersAreLoaded : effAddr (State.reset.setI 0xFFF) 0 < 4096 ∧
    4096 ≤ effAddr (State.reset.setI 0xFFF) 1 := by decide
/-- The state after FX55, with another register file. -/
theorem witness_StoredRegistersComeBack : Memory.wf State.reset.cfg.font State.reset.mem = true ∧
    ∃ t, exec (.ldMemVx 0) State.reset = .next t ∧ Keeps [.V, .pc] t (t.setReg 0 9) :=
  ⟨rfl, _, rfl, fun p hp => by cases p <;> first | rfl | exact fun _ => rfl | simp at hp⟩
theorem witness_NextFetchSeesTheStore : (∃ t, exec (.ldMemVx 1) (State.reset.setI 0x200) = .next t) ∧
    (1 : Reg).val = (0 : Reg).val + 1 ∧ (1 : Reg) ≤ 1 ∧
    (State.reset.setI 0x200).pc.toNat = effAddr (State.reset.setI 0x200) (0 : Reg).val := ⟨⟨_, rfl⟩, by decide⟩
theorem witness_DrawSpriteTogglesCoveredPixels : (List.replicate 15 (0xFF : Byte)).length ≤ 15 := by decide
theorem witness_BlitCollisionAndSelfInverse : ([] : List Byte).length ≤ 15 ∧ ([0x80] : List Byte).length ≤ 15 := by decide
theorem witness_DrawReadsRowsAndSetsFlag : effAddr (State.reset.setI 0xFF1) 0 + (15 : Fin 16).val ≤ 4096 ∧
    (0 : Fin 16).val = 0 ∧ (15 : Fin 16).val ≠ 0 ∧ 4096 < effAddr (State.reset.setI 0xFF2) 0 + (15 : Fin 16).val := by
  decide
theorem witness_FramebufferChangesOnlyByDrawing :
    (let s := State.reset.setFb (Grid.setTo Grid.blank 0 0 true)
     got (exec .cls s) (fun t => Grid.pixel t.fb 0 0 != Grid.pixel s.fb 0 0) = some true) ∧
    HostOp.decay ≠ .step ∧ got (hostCall .decay State.reset) (·.2) = some .done := by decide
theorem witness_KeySkipsTestOneKey : ((regs [(1, 15)]).reg 1).toNat < 16 ∧ 16 ≤ ((regs [(1, 16)]).reg 1).toNat := by
  decide
theorem witness_KeyEventsAndTheWait : (State.reset.setMode (.waitingKey 15)).mode = .waitingKey 15 ∧
    State.reset.mode = .running ∧ ∀ f, State.reset.mode ≠ .halted f := ⟨rfl, rfl, nofun⟩
theorem witness_OnlyKeyDownEndsTheWait :
    got (exec (.ldVxK 2) State.reset) (fun t => decide (t.mode ≠ State.reset.mode)) = some true ∧
    got (hostCall (.setDown 4) (State.reset.setMode (.waitingKey 2))) (fun p => p.1.mode) = some .running ∧
    got (hostCall .decay (State.reset.setMode (.waitingKey 2))) (fun p => p.1.mode) = some (.waitingKey 2) := by decide
theorem witness_MapKeyFindsTheFirstMatch :
    ∀ j : Key, (KeyMap.mk (Vector.replicate 16 7)).ids[j.val] ≠ 8 := by decide
theorem witness_DecayCountsDownToZero : ∀ f, (State.reset.setMode (.waitingKey 0)).mode ≠ .halted f := nofun
theorem witness_TimersChangeOnlyBySetAndDecay :
    got (exec (.ldDtVx 1) (regs [(1, 9)])) (fun t => decide (t.DT ≠ State.reset.DT)) = some true ∧
    got (exec (.ldStVx 1) (regs [(1, 9)])) (fun t => decide (t.ST ≠ State.reset.ST)) = some true ∧
    HostOp.soundCount ≠ .step ∧ HostOp.soundCount ≠ .decay ∧
    got (hostCall .soundCount State.reset) (·.2) = some (.count 0) := by decide
theorem witness_PixelQueryIsBoundsChecked : (∀ f, State.reset.mode ≠ .halted f) ∧ 63 < 64 ∧ 31 < 32 ∧
    (64 ≤ 64 ∨ 32 ≤ 0) ∧ (64 ≤ 0 ∨ 32 ≤ 32) := ⟨nofun, by decide⟩
theorem witness_FaultsHaltForGood : faulted (hostCall (.isSet 0 32) State.reset) = some (.pixelOob 0 32) ∧
    (State.reset.setMode (.halted (.pixelOob 0 32))).mode = .halted (.pixelOob 0 32) := by decide
theorem witness_StepFaultNamesItsWord : faulted (step (State.reset.withFetchWord 16 0x00EE)) =
    some (.stackUnderflow 0x200) := by decide
theorem witness_InstructionFaultKinds :
    (faulted (exec (.ldVxMem 0) (State.reset.setI 0x1000))).map Fault.code = some 2 ∧
    (faulted (exec (.ldMemVx 0) (State.reset.setI 0x1000))).map Fault.code = some 3 ∧
    (faulted (exec (.call 0) (State.reset.setSP 15))).map Fault.code = some 4 ∧
    (faulted (exec .ret State.reset)).map Fault.code = some 5 ∧
    (faulted (exec (.skp 0) (regs [(0, 16)]))).map Fault.code = some 8 ∧
    (faulted (exec (.unrecU0 0) { State.reset with cfg := { Config.standard with policy := .fault } })).map Fault.code =
      some 9 := by decide
theorem witness_RegistersChangeOnlyAsDestinations :
    got (exec (.addReg 1 2) (regs [(1, 0xFF), (2, 1)])) (fun t => (t.reg 1, t.reg 15)) = some (0, 1) := by decide
theorem witness_IndexMemoryAndKeysWriters :
    got (exec (.ldF 0) (regs [(0, 1)])) (·.I) = some 5 ∧
    got (exec (.ldMemVx 0) ((regs [(0, 1)]).setI 0xFFF)) (fun t => decide (t.mem ≠ [])) = some true ∧
    got (exec (.rnd 0 0) State.reset) (·.draws) = some 1 := by decide
theorem witness_OnlyCallAndReturnReachTheStack : Instr.cls ≠ .ret ∧ ∀ nnn, Instr.cls ≠ .call nnn := ⟨nofun, nofun⟩
theorem witness_CreationLoadsTheImage : (List.replicate 3584 (0 : Byte)).length ≤ 3584 ∧
    3584 < (List.replicate 3585 (0 : Byte)).length :=
  ⟨by rw [List.length_replicate], by rw [List.length_replicate]; decide⟩
theorem witness_StepKeepsTheInvariant : (busy.setPc 0x200).Inv ∧
    got (step ((busy.setPc 0x200))) (·.pc) = some 0x202 :=
  ⟨⟨.inr (by decide), by decide, by decide, by decide⟩, by decide⟩
theorem witness_EveryRunKeepsTheInvariant : busy.Inv ∧ ∃ t, runCalls [.decay, .setDown 3] busy = .next t :=
  ⟨busy_inv, _, rfl⟩
theorem witness_CreationMeetsTheInvariant : got (create Config.standard [0x12, 0x00]) (·.pc) = some 0x200 := by decide
theorem witness_LiveMachineIsNeverStuck : busy.Inv ∧ (∀ f, busy.mode ≠ .halted f) ∧
    exec .ret (State.reset.setSP 16) = .refused .illegalStackPointer := ⟨busy_inv, nofun, rfl⟩

end Sys2Proof.Tests
end

section
/-! PROOFS, family 10 (state): where pc stands after a step (R34, R91), and that only the call and the return reach the
call stack (R37). -/

namespace Sys2Proof.Machine

/-! ### The operands that move pc, against their second descriptions in `pcAfter` -/

/-- A skip's pc from the advanced pc is the one told from the fetch address (R91). -/
theorem skip_pc_eq_pcAfterSkip (a : Word) (c : Bool) : (if c then a + 2 + 2 else a + 2) = pcAfterSkip a c := by
  unfold pcAfterSkip
  rw [BitVec.add_assoc]
  rfl

@[simp] theorem setRegs_pc (s : State) (k : Nat) (bs : List Byte) : (setRegs s k bs).pc = s.pc := by
  obtain ⟨V, hV⟩ := setRegs_eq s k bs
  rw [hV]

/-- BNNN's target is the word of the sum of its two parts (R124). -/
theorem offsetTarget_eq_ofNat (s : State) (nnn : Addr12) :
    offsetTarget s nnn = BitVec.ofNat 16 (nnn.toNat + (s.reg 0).toNat) := by
  rw [BitVec.ofNat_add, BitVec.ofNat_toNat, BitVec.ofNat_toNat]
  rfl

theorem keyOf_eq_some {b : Byte} {k : Key} : keyOf b = some k ↔ b.toNat = k.val := by
  unfold keyOf
  split
  · simp [Fin.ext_iff]
  · next h => exact ⟨nofun, fun e => absurd (e ▸ k.isLt) h⟩

/-- The key that a byte names is down exactly when the list of keys says so at the byte's index. -/
theorem isDown_eq_getD {s : State} {b : Byte} {k : Key} (h : keyOf b = some k) :
    isDown s k = s.keys.toList.getD b.toNat false := by
  simp [isDown, keyOf_eq_some.mp h]

/-- The next state of an instruction run on the advanced state has the pc that `pcAfter` tells from the fetch address:
jumps, calls, returns and skips write pc, every other instruction keeps the advanced one (R34, R91). -/
theorem NextState.pc_eq {s t : State} {i : Instr} (h : NextState (advance s) t i) : t.pc = pcAfter s.pc s i := by
  cases i <;> simp only [NextState] at h
  case ret =>
    obtain ⟨hlt, -, rfl⟩ := h
    have hlt : s.SP.toNat < 16 := hlt
    simp [pcAfter, advance_eq, hlt]
  case call nnn => obtain ⟨-, rfl⟩ := h; rfl
  case jpV0 nnn => rw [h]; exact offsetTarget_eq_ofNat _ nnn
  case seImm | sneImm | seReg | sneReg => rw [h]; exact skip_pc_eq_pcAfterSkip ..
  case skp | sknp =>
    obtain ⟨k, hk, rfl⟩ := h
    rw [isDown_eq_getD hk]
    exact skip_pc_eq_pcAfterSkip ..
  case drw x y n => obtain ⟨-, b, -, rfl⟩ := h; rfl
  case ldB | ldMemVx => rw [h.2, putBytes_eq]; rfl
  case ldVxMem x =>
    obtain ⟨-, rfl⟩ := h
    rw [setRegs_pc]
    rfl
  case unrecU0 | unrecU8 | unrecUE | unrecUF => rw [h.2]; rfl
  all_goals rw [h]; rfl

theorem fetchInsn_eq_next {s : State} {w : Word} : fetchInsn s = .next w ↔
    s.pc.toNat + 1 < 4096 ∧ w = wordOfBytes (s.byteAt s.pc.toNat) (s.byteAt (s.pc.toNat + 1)) := by
  rw [fetchInsn_eq]
  split
  · next h => simp [h, eq_comm]
  · next h => simp [h]

/-- Settles O9: a running step is the fetched instruction's next state, whose pc is known class by class; a parked one is
the same state. -/
theorem pcAfterEveryStep : Obligations.PcAfterEveryStep := by
  intro s t hstep
  rcases (step_eq_next s t).mp hstep with ⟨⟨x, hmode⟩, rfl⟩ | ⟨hmode, hpc, hnext⟩
  · exact ⟨fun hrun => by simp [hmode] at hrun, fun _ _ => rfl⟩
  · refine ⟨fun _ w hw => ?_, fun x hwait => by simp [hmode] at hwait⟩
    obtain ⟨-, rfl⟩ := fetchInsn_eq_next.mp hw
    refine ⟨hnext.pc_eq, by omega, fun x hx => ?_⟩
    rw [hx] at hnext
    rw [show t = _ from hnext, State.setMode_mode]

/-! ### The call stack is out of reach of every operation but push and pop (R37) -/

section
variable (s : State) (sp : Byte) (stack : Vector Word 16)

@[simp] theorem withCallStack_reg (x : Reg) : (s.withCallStack sp stack).reg x = s.reg x := rfl
@[simp] theorem withCallStack_cfg : (s.withCallStack sp stack).cfg = s.cfg := rfl

theorem mapState_andThen {α : Type} (g : State → State) (r : Result α) (k : α → Result State) :
    mapState g (andThen r k) = andThen r fun a => mapState g (k a) := by
  cases r <;> rfl

theorem skipIf_withCallStack (c : Bool) :
    skipIf c (s.withCallStack sp stack) = (skipIf c s).withCallStack sp stack := by
  cases c <;> rfl

theorem readBytes_withCallStack (a n : Nat) : readBytes (s.withCallStack sp stack) a n = readBytes s a n := by
  rw [readBytes_eq, readBytes_eq]
  rfl

theorem putBytes_withCallStack (a : Nat) (bs : List Byte) :
    (s.withCallStack sp stack).putBytes a bs = (s.putBytes a bs).withCallStack sp stack := by
  induction bs generalizing s a with
  | nil => rfl
  | cons b rest ih => exact ih (s.putByte a b) (a + 1)

theorem writeBytes_withCallStack (a : Nat) (bs : List Byte) :
    writeBytes (s.withCallStack sp stack) a bs =
      mapState (fun t => t.withCallStack sp stack) (writeBytes s a bs) := by
  rw [writeBytes_eq, writeBytes_eq, putBytes_withCallStack]
  split <;> rfl

theorem setRegs_withCallStack (k : Nat) (bs : List Byte) :
    setRegs (s.withCallStack sp stack) k bs = (setRegs s k bs).withCallStack sp stack := by
  induction bs generalizing s k with
  | nil => rfl
  | cons b rest ih =>
    unfold setRegs
    split
    · next hk => exact ih (s.setReg ⟨k, hk⟩ b) (k + 1)
    · rfl

theorem unrecognised_withCallStack (w : Word) :
    unrecognised w (s.withCallStack sp stack) =
      mapState (fun t => t.withCallStack sp stack) (unrecognised w s) := by
  unfold unrecognised
  rw [withCallStack_cfg]
  split <;> rfl

end

/-- Settles O53: each shared operation commutes with the exchange of the call stack, and every other arm updates fields
apart from it. -/
theorem onlyCallAndReturnReachTheStack : Obligations.OnlyCallAndReturnReachTheStack := by
  intro i s sp stack hret hcall
  cases i
  case ret => exact absurd rfl hret
  case call nnn => exact absurd rfl (hcall nnn)
  case seImm | sneImm | seReg | sneReg => exact congrArg _ (skipIf_withCallStack s sp stack _)
  case skp x | sknp x =>
    simp only [exec, execSkp, execSknp, withCallStack_reg]
    split
    · rfl
    · exact congrArg _ (skipIf_withCallStack s sp stack _)
  case drw x y n =>
    simp only [exec, execDrw, readBytes_withCallStack, mapState_andThen]
    rfl
  case ldB | ldMemVx => exact writeBytes_withCallStack s sp stack ..
  case ldVxMem x =>
    simp only [exec, execLdVxMem, readBytes_withCallStack, setRegs_withCallStack, mapState_andThen]
    rfl
  case unrecU0 | unrecU8 | unrecUE | unrecUF => exact unrecognised_withCallStack s sp stack _
  all_goals rfl

end Sys2Proof.Machine
end

section
/-! PROOFS, family 20 (memory): the fetch primitive (R64). -/

namespace Sys2Proof.Machine

/-- The fetch faults with pc as soon as its second byte is outside memory (R64). -/
theorem fetchInsn_of_outOfBounds {s : State} (h : 4096 ≤ s.pc.toNat + 1) :
    fetchInsn s = .fault (.fetchOob s.pc) := by
  rw [fetchInsn_eq, if_neg h.not_gt]

/-- Settles O7: inside memory the fetched word is that of the two bytes at pc, whose value is big-endian; outside it
faults. -/
theorem fetchIsBigEndianAndBoundsChecked : Obligations.FetchIsBigEndianAndBoundsChecked := by
  intro s
  refine ⟨fun hin => ⟨_, fetchInsn_eq_next.mpr ⟨hin, rfl⟩, ?_⟩, fetchInsn_of_outOfBounds⟩
  rw [wordOfBytes_toNat, Nat.mul_comm]

end Sys2Proof.Machine
end

section
/-! PROOFS, family 40 (control flow): the jump and the skips on an immediate (R122, R125, R126), and that no host
operation but a step moves pc (R34). -/

namespace Sys2Proof.Machine

/-! ### Writing pc, and the fault of a fetch from the written pc -/

theorem keeps_setPc (s : State) (w : Word) : Keeps [.pc] s (s.setPc w) := by
  intro p hp
  cases p
  case pc => exact absurd (List.mem_singleton_self _) hp
  case V | mem => exact fun _ => rfl
  all_goals rfl

/-- A running machine whose pc leaves no room for a word in memory faults at the fetch (R64, R90). -/
theorem step_of_fetch_outOfBounds {s : State} (hrun : s.mode = .running) (h : 4096 ≤ s.pc.toNat + 1) :
    step s = .fault (.fetchOob s.pc) := by
  simp [step, hrun, fetchInsn_of_outOfBounds h]

/-! ### Host operations other than a step leave pc alone -/

@[simp] theorem decay_pc (s : State) : (decay s).pc = s.pc := rfl
@[simp] theorem setUp_pc (s : State) (k : Key) : (setUp s k).pc = s.pc := rfl

@[simp] theorem keyDownEvent_pc (s : State) (k : Key) : (keyDownEvent s k).pc = s.pc := by
  unfold keyDownEvent
  split <;> rfl

@[simp] theorem setDown_pc (s : State) (k : Key) : (setDown s k).pc = s.pc := keyDownEvent_pc _ k

/-- A call that answers found a machine that is not halted (R263). -/
theorem liveCall_of_hostCall_eq_next {op : HostOp} {s : State} {p : State × Response}
    (h : hostCall op s = .next p) : liveCall op s = .next p := by
  unfold hostCall at h
  split at h
  · cases h
  · exact h
  · exact h

theorem liveCall_pc {op : HostOp} {s u : State} {r : Response} (hop : op ≠ .step)
    (h : liveCall op s = .next (u, r)) : u.pc = s.pc := by
  cases op
  case step => exact absurd rfl hop
  case decay => cases h; exact decay_pc s
  case setDown k => cases h; exact setDown_pc s k
  case setUp k => cases h; exact setUp_pc s k
  case isSet x y =>
    obtain ⟨b, -, hb⟩ := andThen_eq_next.mp h
    cases hb
    rfl
  case soundCount => cases h; rfl

/-! ### The obligations -/

/-- Settles O19: the jump is one write of pc; at 0xFFF the next fetch has no second byte in memory. -/
theorem jumpSetsPc : Obligations.JumpSetsPc := by
  intro s nnn
  have hpc : (s.setPc (absolute nnn)).pc.toNat = nnn.toNat := BitVec.toNat_setWidth_of_le (by decide)
  refine ⟨by simp [decodeWord], s.setPc (absolute nnn), (exec_eq_next (.jp nnn) s _).mpr rfl, hpc, keeps_setPc s _,
    fun hrun htarget => ?_, fun op u r hop h => liveCall_pc hop (liveCall_of_hostCall_eq_next h)⟩
  subst htarget
  exact step_of_fetch_outOfBounds hrun (by rw [hpc]; decide)

/-- Settles O24: each skip is one write of pc, with 2 more on it or not by the condition; past 0xFFE the next fetch has
no second byte in memory. -/
theorem skipsOnImmediate : Obligations.SkipsOnImmediate := by
  intro s x nn
  refine ⟨⟨by simp [decodeWord], _, (exec_eq_next (.seImm x nn) s _).mpr rfl, by simp, keeps_setPc s _,
      fun hrun heq hpast => ?_⟩,
    ⟨by simp [decodeWord], _, (exec_eq_next (.sneImm x nn) s _).mpr rfl, by simp, keeps_setPc s _⟩⟩
  have hskip : (if s.reg x == nn then s.pc + 2 else s.pc) = s.pc + 2 := if_pos (beq_iff_eq.mpr heq)
  rw [hskip]
  exact step_of_fetch_outOfBounds hrun (by rw [State.setPc_pc]; omega)

end Sys2Proof.Machine
end

section
/-! PROOFS, family 41 (ALU): the register loads 6XNN and 8XY0 (R151, R153). -/

namespace Sys2Proof.Machine

/-! ### The frame of one register write -/

theorem keepsRegs_setReg (s : State) (x : Reg) (b : Byte) : KeepsRegs [x] s (s.setReg x b) := fun _ hr =>
  State.setReg_reg_ne s b (List.ne_of_not_mem_cons hr)

theorem keeps_setReg (s : State) (x : Reg) (b : Byte) : Keeps [.V] s (s.setReg x b) := by
  intro p hp
  cases p
  case V => exact absurd (List.mem_singleton_self _) hp
  case mem => exact fun _ => rfl
  all_goals rfl

/-! ### The obligation -/

/-- Settles O11: each word decodes by its format's fields, and each instruction is one write of register X. -/
theorem loadImmediateAndCopy : Obligations.LoadImmediateAndCopy := by
  intro s x y nn
  refine ⟨⟨by simp [decodeWord], s.setReg x nn, (exec_eq_next (.ldImm x nn) s _).mpr rfl, ?_⟩,
    ⟨by simp [decodeWord, decode8], s.setReg x (s.reg y), (exec_eq_next (.ldReg x y) s _).mpr rfl, ?_⟩⟩
  · exact ⟨State.setReg_reg_self s x nn, keepsRegs_setReg s x nn, keeps_setReg s x nn⟩
  · exact ⟨State.setReg_reg_self s x _, keepsRegs_setReg s x _, keeps_setReg s x _⟩

end Sys2Proof.Machine
end

section
/-! PROOFS, family 42 (index register and memory): the loads of I, ANNN and FX29 (R180, R182). -/

namespace Sys2Proof.Machine

/-! ### The values that the loads of I write, and the frame of a write of I -/

theorem absolute_toNat (nnn : Addr12) : (absolute nnn).toNat = nnn.toNat :=
  BitVec.toNat_setWidth_of_le (by decide)

/-- The low nibble of a byte, by its mask (R182). -/
theorem and_0x0F_toNat (b : Byte) : (b &&& 0x0F).toNat = b.toNat % 16 :=
  (BitVec.toNat_and ..).trans (Nat.and_two_pow_sub_one_eq_mod b.toNat 4)

/-- Every glyph address is far below the word size, so the cut to a word loses nothing (R182). -/
theorem glyphAddr_toNat (b : Byte) : (glyphAddr b).toNat = 5 * (b.toNat % 16) := by
  rw [glyphAddr, and_0x0F_toNat, BitVec.toNat_ofNat, Config.fontBase, Config.glyphHeight]
  omega

theorem keeps_setI (s : State) (w : Word) : Keeps [.I] s (s.setI w) := by
  intro p hp
  cases p
  case I => exact absurd (List.mem_singleton_self _) hp
  case V | mem => exact fun _ => rfl
  all_goals rfl

/-! ### The obligation -/

/-- Settles O27: each word decodes by its format's fields, and each instruction is one write of I. -/
theorem indexLoadAndGlyphAddress : Obligations.IndexLoadAndGlyphAddress := by
  intro s nnn x
  refine ⟨⟨by simp [decodeWord], s.setI (absolute nnn), (exec_eq_next (.ldI nnn) s _).mpr rfl, ?_⟩,
    ⟨by simp [decodeWord, decodeF], s.setI (glyphAddr (s.reg x)), (exec_eq_next (.ldF x) s _).mpr rfl, ?_⟩⟩
  · exact ⟨absolute_toNat nnn, keeps_setI s _⟩
  · exact ⟨glyphAddr_toNat (s.reg x), keeps_setI s _⟩

end Sys2Proof.Machine
end

section
/-! PROOFS, family 43 (display): the screen clear (R200, R205), the XOR blit (R203) and the pixel query (R202, R286). -/

namespace Sys2Proof.Machine

/-! ### The frame of a write of the framebuffer -/

theorem keeps_setFb (s : State) (g : Grid) : Keeps [.fb] s (s.setFb g) := by
  intro p hp
  cases p
  case fb => exact absurd (List.mem_singleton_self _) hp
  case V | mem => exact fun _ => rfl
  all_goals rfl

/-! ### The pixels that a sprite covers, row by row (R203) -/

@[simp] theorem spriteCovers_nil (x y : Nat) (r : Fin 32) (c : Fin 64) : spriteCovers x y [] r c = false := rfl

theorem mod_screenH_eq_iff (y : Nat) (r : Fin 32) : y % 32 = r.val ↔ r = rowOf y :=
  eq_comm.trans (Fin.ext_iff (b := rowOf y)).symm

theorem mod_screenW_eq_iff (x : Nat) (c : Fin 64) : x % 64 = c.val ↔ c = colOf x :=
  eq_comm.trans (Fin.ext_iff (b := colOf x)).symm

/-- One row covers, in the one screen row it wraps to, the pixels under its 1 bits. -/
theorem spriteCovers_singleton (x y : Nat) (row : Byte) (r : Fin 32) (c : Fin 64) :
    spriteCovers x y [row] r c =
      (decide (r = rowOf y) && (List.range 8).any fun j => row.getLsbD (7 - j) && decide (c = colOf (x + j))) := by
  by_cases hr : r = rowOf y
  · simp [spriteCovers, mod_screenH_eq_iff, mod_screenW_eq_iff, hr]
  · simp [spriteCovers, mod_screenH_eq_iff, hr]

/-- The rows after the first cover what they would as a sprite of their own, one row further down. -/
theorem spriteCovers_cons (x y : Nat) (row : Byte) (rest : List Byte) (r : Fin 32) (c : Fin 64) :
    spriteCovers x y (row :: rest) r c = (spriteCovers x y [row] r c || spriteCovers x (y + 1) rest r c) := by
  simp [spriteCovers, List.range_succ_eq_map, List.any_map, Function.comp_def, Nat.add_right_comm y, Nat.add_assoc y]

/-- A covered pixel lies in the screen row that some row of the sprite wraps to. -/
theorem exists_row_of_spriteCovers {x y : Nat} {sprite : List Byte} {r : Fin 32} {c : Fin 64}
    (h : spriteCovers x y sprite r c = true) : ∃ i < sprite.length, (y + i) % 32 = r.val := by
  obtain ⟨i, hi, h⟩ := List.any_eq_true.mp h
  obtain ⟨j, -, h⟩ := List.any_eq_true.mp h
  simp only [Bool.and_eq_true, decide_eq_true_eq] at h
  obtain ⟨⟨-, hrow⟩, -⟩ := h
  exact ⟨i, List.mem_range.mp hi, hrow⟩

/-- Up to 32 rows wrap to different screen rows, so the first row's pixels are not covered again. -/
theorem spriteCovers_rest_eq_false {x y : Nat} {row : Byte} {rest : List Byte} {r : Fin 32} {c : Fin 64}
    (hlen : (row :: rest).length ≤ 32) (h : spriteCovers x y [row] r c = true) :
    spriteCovers x (y + 1) rest r c = false := by
  rw [Bool.eq_false_iff]
  intro hrest
  obtain ⟨i, hi, hrow⟩ := exists_row_of_spriteCovers h
  obtain ⟨k, hk, hrow'⟩ := exists_row_of_spriteCovers hrest
  simp only [List.length_cons, List.length_nil] at hi hlen
  omega

/-! ### The blit toggles the covered pixels, and collides at those that were on (R203) -/

namespace Blit

theorem row_pixel (t : Blit) (x y : Nat) (row : Byte) (r : Fin 32) (c : Fin 64) :
    (t.columns x y row 8).grid.pixel r c = (t.grid.pixel r c != spriteCovers x y [row] r c) := by
  rw [columns_pixel t x y row (Nat.le_refl 8), spriteCovers_singleton]

theorem row_collided (t : Blit) (x y : Nat) (row : Byte) :
    (t.columns x y row 8).collided = true ↔
      t.collided = true ∨ ∃ r c, spriteCovers x y [row] r c = true ∧ t.grid.pixel r c = true := by
  rw [columns_collided t x y row (Nat.le_refl 8), Bool.or_eq_true, List.any_eq_true]
  refine or_congr_right ⟨fun ⟨j, hj, hon⟩ => ?_, fun ⟨r, c, hcov, hon⟩ => ?_⟩
  · obtain ⟨hbit, hon⟩ := Bool.and_eq_true_iff.mp hon
    refine ⟨rowOf y, colOf (x + j), ?_, hon⟩
    rw [spriteCovers_singleton, decide_eq_true rfl, Bool.true_and, List.any_eq_true]
    exact ⟨j, hj, by simp [hbit]⟩
  · rw [spriteCovers_singleton, Bool.and_eq_true, decide_eq_true_eq, List.any_eq_true] at hcov
    obtain ⟨rfl, j, hj, hbit⟩ := hcov
    obtain ⟨hbit, hc⟩ := Bool.and_eq_true_iff.mp hbit
    rw [of_decide_eq_true hc] at hon
    exact ⟨j, hj, by simp [hbit, hon]⟩

theorem rows_pixel (t : Blit) (x y : Nat) (sprite : List Byte) (hlen : sprite.length ≤ 32) (r : Fin 32) (c : Fin 64) :
    (t.rows x y sprite).grid.pixel r c = (t.grid.pixel r c != spriteCovers x y sprite r c) := by
  induction sprite generalizing t y with
  | nil => simp [rows]
  | cons row rest ih =>
    rw [rows, ih _ _ (Nat.le_of_succ_le hlen), row_pixel, spriteCovers_cons x y row rest]
    by_cases h : spriteCovers x y [row] r c = true
    · simp [h, spriteCovers_rest_eq_false hlen h]
    · simp [h]

theorem rows_collided (t : Blit) (x y : Nat) (sprite : List Byte) (hlen : sprite.length ≤ 32) :
    (t.rows x y sprite).collided = true ↔
      t.collided = true ∨ ∃ r c, spriteCovers x y sprite r c = true ∧ t.grid.pixel r c = true := by
  induction sprite generalizing t y with
  | nil => simp [rows]
  | cons row rest ih =>
    /- The first row changes no pixel under the others, so they collide as on the grid before it. -/
    have hafter (r : Fin 32) (c : Fin 64) :
        (spriteCovers x (y + 1) rest r c = true ∧ (t.columns x y row 8).grid.pixel r c = true) ↔
          (spriteCovers x (y + 1) rest r c = true ∧ t.grid.pixel r c = true) := by
      rw [row_pixel]
      by_cases h : spriteCovers x y [row] r c = true
      · simp [spriteCovers_rest_eq_false hlen h]
      · simp [h]
    rw [rows, ih _ _ (Nat.le_of_succ_le hlen)]
    simp only [row_collided, hafter, spriteCovers_cons x y row rest, Bool.or_eq_true, or_and_right, exists_or,
      or_assoc]

end Blit

/-! ### The pixel query (R202, R286) -/

theorem isSet_of_inRange (s : State) {x y : Nat} (hx : x < 64) (hy : y < 32) :
    isSet s x y = .next ((s.fb[y])[x]) := dif_pos ⟨hx, hy⟩

theorem isSet_of_outOfRange (s : State) {x y : Nat} (h : 64 ≤ x ∨ 32 ≤ y) :
    isSet s x y = .fault (.pixelOob x y) :=
  dif_neg fun ⟨hx, hy⟩ => h.elim hx.not_ge hy.not_ge

theorem hostCall_of_not_halted {s : State} (h : ∀ f, s.mode ≠ .halted f) (op : HostOp) :
    hostCall op s = liveCall op s := by
  unfold hostCall
  split
  · next f hf => exact absurd hf (h f)
  · rfl
  · rfl

/-! ### The obligations -/

/-- Settles O35, by induction on the sprite's rows: its at most 15 rows wrap to different screen rows, so no pixel is
toggled twice. -/
theorem drawSpriteTogglesCoveredPixels : Obligations.DrawSpriteTogglesCoveredPixels := by
  intro g x y sprite hlen
  have hlen : sprite.length ≤ 32 := by omega
  exact ⟨Blit.rows_pixel ⟨g, false⟩ _ _ sprite hlen,
    (Blit.rows_collided ⟨g, false⟩ _ _ sprite hlen).trans (or_iff_right Bool.false_ne_true)⟩

/-- Settles O34: the instruction is one write of the framebuffer, with the blank grid. -/
theorem clearScreenTurnsAllOff : Obligations.ClearScreenTurnsAllOff :=
  ⟨rfl, fun s => ⟨s.setFb Grid.blank, (exec_eq_next .cls s _).mpr rfl, Grid.pixel_blank, keeps_setFb s _⟩⟩

/-- Settles O47: on a machine that is not halted the call is the query, which tests both coordinates first. -/
theorem pixelQueryIsBoundsChecked : Obligations.PixelQueryIsBoundsChecked := by
  intro s x y hlive
  simp only [hostCall_of_not_halted hlive, liveCall]
  refine ⟨fun hx hy => ?_, fun hout => ?_⟩
  · rw [isSet_of_inRange s hx hy]
    rfl
  · rw [isSet_of_outOfRange s hout]
    rfl

end Sys2Proof.Machine
end

section
/-! PROOFS, family 45 (timers): the timers are read by FX07 and set by FX15 and FX18 (R250 to R252). -/

namespace Sys2Proof.Machine

/-! ### The frame of a write of one timer -/

theorem keeps_setDT (s : State) (b : Byte) : Keeps [.DT] s (s.setDT b) := by
  intro p hp
  cases p
  case DT => exact absurd (List.mem_singleton_self _) hp
  case V | mem => exact fun _ => rfl
  all_goals rfl

theorem keeps_setST (s : State) (b : Byte) : Keeps [.ST] s (s.setST b) := by
  intro p hp
  cases p
  case ST => exact absurd (List.mem_singleton_self _) hp
  case V | mem => exact fun _ => rfl
  all_goals rfl

/-! ### The obligation -/

/-- Settles O44: each word decodes by its format's fields; the read is one write of register X, and each set is one write
of its timer. -/
theorem timerRegistersReadAndSet : Obligations.TimerRegistersReadAndSet := by
  intro s x
  refine ⟨⟨by simp [decodeWord, decodeF], s.setReg x s.DT, (exec_eq_next (.ldVxDt x) s _).mpr rfl, ?_⟩,
    ⟨by simp [decodeWord, decodeF], s.setDT (s.reg x), (exec_eq_next (.ldDtVx x) s _).mpr rfl, ?_⟩,
    ⟨by simp [decodeWord, decodeF], s.setST (s.reg x), (exec_eq_next (.ldStVx x) s _).mpr rfl, ?_⟩⟩
  · exact ⟨State.setReg_reg_self s x _, keepsRegs_setReg s x _, keeps_setReg s x _⟩
  · exact ⟨State.setDT_DT s _, keeps_setDT s _⟩
  · exact ⟨State.setST_ST s _, keeps_setST s _⟩

end Sys2Proof.Machine
end

section
/-! PROOFS, other statements, encoding: the two round trips between words and instructions (R92 to R98), and the words
of the unrecognised classes (R100). -/

namespace Sys2Proof

/-! ### From an instruction to its word and back -/

theorem decode0_of_not_isFunction0 {nnn : Addr12} (h : isFunction0 nnn = false) :
    decode0 (formatA 0x0 nnn) = .unrecU0 nnn := by
  have hne (m : Addr12) (hm : isFunction0 m = true) : formatA 0x0 nnn ≠ formatA 0x0 m := fun e => by
    have e := congrArg fieldNNN e
    rw [fieldNNN_formatA, fieldNNN_formatA] at e
    rw [e, hm] at h
    cases h
  unfold decode0
  rw [if_neg (show _ ≠ (0x00E0 : Word) from hne 0x0E0 rfl), if_neg (show _ ≠ (0x00EE : Word) from hne 0x0EE rfl),
    fieldNNN_formatA]

theorem decode8_of_not_isFunction8 {w : Word} (h : isFunction8 (fieldN w) = false) :
    decode8 w = .unrecU8 (fieldX w) (fieldY w) (fieldN w) := by
  unfold decode8
  split
  case h_10 => rfl
  all_goals next e => rw [e] at h; cases h

theorem decodeE_of_not_isFunctionE {w : Word} (h : isFunctionE (fieldNN w) = false) :
    decodeE w = .unrecUE (fieldX w) (fieldNN w) := by
  unfold decodeE
  split
  case h_3 => rfl
  all_goals next e => rw [e] at h; cases h

theorem decodeF_of_not_isFunctionF {w : Word} (h : isFunctionF (fieldNN w) = false) :
    decodeF w = .unrecUF (fieldX w) (fieldNN w) := by
  unfold decodeF
  split
  case h_10 => rfl
  all_goals next e => rw [e] at h; cases h

/-- Settles O2: the decoder reads the fields that the format has put into the word; an unrecognised word is none of its
family's selectors. -/
theorem decodeOfEncodeGivesBack : Obligations.DecodeOfEncodeGivesBack := by
  intro i hwf
  cases i
  case cls | ret => rfl
  case unrecU0 nnn =>
    have hout : isFunction0 nnn = false := by simpa [Instr.wellFormed] using hwf
    have hop : decodeWord (formatA 0x0 nnn) = decode0 (formatA 0x0 nnn) := by simp [decodeWord]
    exact hop.trans (decode0_of_not_isFunction0 hout)
  case unrecU8 x y n =>
    have hout : isFunction8 n = false := by simpa [Instr.wellFormed] using hwf
    simp [encode, decodeWord, decode8_of_not_isFunction8, hout]
  case unrecUE x nn =>
    have hout : isFunctionE nn = false := by simpa [Instr.wellFormed] using hwf
    simp [encode, decodeWord, decodeE_of_not_isFunctionE, hout]
  case unrecUF x nn =>
    have hout : isFunctionF nn = false := by simpa [Instr.wellFormed] using hwf
    simp [encode, decodeWord, decodeF_of_not_isFunctionF, hout]
  all_goals simp [encode, decodeWord, decode8, decodeE, decodeF]

/-! ### From a word to its instruction and back -/

/-- An instruction stands for at least one word, and its own word is `w`. -/
def EncodesTo (i : Instr) (w : Word) : Prop := i.wellFormed = true ∧ encode i = w

theorem formatA_of_op {w : Word} {op : BitVec 4} (h : fieldOp w = op) : formatA op (fieldNNN w) = w :=
  h ▸ formatA_fields w

theorem formatRI_of_op {w : Word} {op : BitVec 4} (h : fieldOp w = op) : formatRI op (fieldX w) (fieldNN w) = w :=
  h ▸ formatRI_fields w

theorem formatRR_of_op {w : Word} {op : BitVec 4} (h : fieldOp w = op) :
    formatRR op (fieldX w) (fieldY w) (fieldN w) = w :=
  h ▸ formatRR_fields w

theorem formatRR_clear_n (op : BitVec 4) (x y : Reg) (n : BitVec 4) :
    formatRR op x y n &&& 0xFFF0 = formatRR op x y 0x0 := by
  apply BitVec.eq_of_getLsbD_eq
  intro k hk
  rw [BitVec.getLsbD_and]
  simp only [formatRR_bit]
  interval_cases k <;> simp

theorem canonicalWord_of_untested {w : Word} {op : BitVec 4} (h : fieldOp w = op) (h59 : op = 0x5 ∨ op = 0x9) :
    canonicalWord w = formatRR op (fieldX w) (fieldY w) 0x0 := by
  rw [canonicalWord, h, if_pos h59, ← formatRR_clear_n op _ _ (fieldN w), formatRR_of_op h]

theorem canonicalWord_of_tested {w : Word} (h5 : fieldOp w ≠ 0x5) (h9 : fieldOp w ≠ 0x9) : canonicalWord w = w :=
  if_neg (not_or.mpr ⟨h5, h9⟩)

theorem decode0_encodesTo {w : Word} (h : fieldOp w = 0x0) : EncodesTo (decode0 w) w := by
  unfold decode0
  split
  · next e => exact ⟨rfl, e.symm⟩
  · next hcls =>
    split
    · next e => exact ⟨rfl, e.symm⟩
    · next hret =>
      have hw : formatA 0x0 (fieldNNN w) = w := formatA_of_op h
      have hout : isFunction0 (fieldNNN w) = false := by
        simp only [isFunction0, List.mem_cons, List.not_mem_nil, or_false, decide_eq_false_iff_not, not_or]
        exact ⟨fun e => hcls (by rw [← hw, e]; rfl), fun e => hret (by rw [← hw, e]; rfl)⟩
      exact ⟨congrArg not hout, hw⟩

theorem decode8_encodesTo {w : Word} (h : fieldOp w = 0x8) : EncodesTo (decode8 w) w := by
  have hw := formatRR_of_op h
  unfold decode8
  split
  case h_10 => exact ⟨by simp_all [Instr.wellFormed, isFunction8], hw⟩
  all_goals next e => exact ⟨rfl, (congrArg (formatRR 0x8 _ _) e).symm.trans hw⟩

theorem decodeE_encodesTo {w : Word} (h : fieldOp w = 0xE) : EncodesTo (decodeE w) w := by
  have hw := formatRI_of_op h
  unfold decodeE
  split
  case h_3 => exact ⟨by simp_all [Instr.wellFormed, isFunctionE], hw⟩
  all_goals next e => exact ⟨rfl, (congrArg (formatRI 0xE _) e).symm.trans hw⟩

theorem decodeF_encodesTo {w : Word} (h : fieldOp w = 0xF) : EncodesTo (decodeF w) w := by
  have hw := formatRI_of_op h
  unfold decodeF
  split
  case h_10 => exact ⟨by simp_all [Instr.wellFormed, isFunctionF], hw⟩
  all_goals next e => exact ⟨rfl, (congrArg (formatRI 0xF _) e).symm.trans hw⟩

/-- Settles O3: every family's instruction keeps the fields of its word, but for the nibble that families 5 and 9 do not
test. -/
theorem encodeOfDecodeGivesWord : Obligations.EncodeOfDecodeGivesWord := by
  intro w
  show EncodesTo (decodeWord w) (canonicalWord w)
  by_cases h5 : fieldOp w = 0x5
  · rw [canonicalWord_of_untested h5 (.inl rfl), decodeWord, h5]
    exact ⟨rfl, rfl⟩
  by_cases h9 : fieldOp w = 0x9
  · rw [canonicalWord_of_untested h9 (.inr rfl), decodeWord, h9]
    exact ⟨rfl, rfl⟩
  rw [canonicalWord_of_tested h5 h9]
  unfold decodeWord
  split
  case h_1 e => exact decode0_encodesTo e
  case h_9 e => exact decode8_encodesTo e
  case h_15 e => exact decodeE_encodesTo e
  case h_16 =>
    have hF : fieldOp w = 0xF := by
      generalize fieldOp w = op at *
      revert op
      decide
    exact decodeF_encodesTo hF
  case h_6 e => exact absurd e h5
  case h_10 e => exact absurd e h9
  case h_2 e | h_3 e | h_11 e | h_12 e => exact ⟨rfl, formatA_of_op e⟩
  case h_14 e => exact ⟨rfl, formatRR_of_op e⟩
  all_goals next e => exact ⟨rfl, formatRI_of_op e⟩

/-! ### The words of the unrecognised classes (R100) -/

@[simp] theorem fieldOp_canonicalWord (w : Word) : fieldOp (canonicalWord w) = fieldOp w := by
  by_cases h : fieldOp w = 0x5 ∨ fieldOp w = 0x9
  · rw [canonicalWord_of_untested rfl h, fieldOp_formatRR]
  · rw [canonicalWord, if_neg h]

/-- Outside families 5 and 9 a word decodes to an instruction exactly when it is that instruction's word: the two round
trips together. -/
theorem decodeWord_eq_iff_encodesTo {w : Word} {i : Instr} (h5 : fieldOp (encode i) ≠ 0x5)
    (h9 : fieldOp (encode i) ≠ 0x9) : decodeWord w = i ↔ EncodesTo i w := by
  constructor
  · rintro rfl
    obtain ⟨hwf, henc⟩ := encodeOfDecodeGivesWord w
    rw [henc, fieldOp_canonicalWord] at h5 h9
    exact ⟨hwf, henc.trans (canonicalWord_of_tested h5 h9)⟩
  · rintro ⟨hwf, rfl⟩
    exact decodeOfEncodeGivesBack i hwf

theorem fieldOp_toNat (w : Word) : (fieldOp w).toNat = w.toNat / 0x1000 := by
  simp [fieldOp, Nat.shiftRight_eq_div_pow]
  omega

theorem fieldN_toNat (w : Word) : (fieldN w).toNat = w.toNat % 0x10 := by
  simp [fieldN]

theorem fieldNN_toNat (w : Word) : (fieldNN w).toNat = w.toNat % 0x100 := by
  simp [fieldNN]

theorem fieldOp_eq_iff (w : Word) (op : BitVec 4) : fieldOp w = op ↔ w.toNat / 0x1000 = op.toNat := by
  rw [BitVec.toNat_eq, fieldOp_toNat]

theorem decodeWord_unrecU0_iff (w : Word) :
    (∃ nnn, decodeWord w = .unrecU0 nnn) ↔ fieldOp w = 0x0 ∧ isFunction0 (fieldNNN w) = false := by
  refine (exists_congr fun nnn => decodeWord_eq_iff_encodesTo (by simp [encode]) (by simp [encode])).trans ⟨?_, ?_⟩
  · rintro ⟨nnn, hwf, rfl⟩
    simpa [encode, Instr.wellFormed] using hwf
  · rintro ⟨hop, hout⟩
    exact ⟨_, congrArg not hout, formatA_of_op hop⟩

theorem decodeWord_unrecU8_iff (w : Word) :
    (∃ x y n, decodeWord w = .unrecU8 x y n) ↔ fieldOp w = 0x8 ∧ isFunction8 (fieldN w) = false := by
  refine (exists_congr fun x => exists_congr fun y => exists_congr fun n =>
    decodeWord_eq_iff_encodesTo (by simp [encode]) (by simp [encode])).trans ⟨?_, ?_⟩
  · rintro ⟨x, y, n, hwf, rfl⟩
    simpa [encode, Instr.wellFormed] using hwf
  · rintro ⟨hop, hout⟩
    exact ⟨_, _, _, congrArg not hout, formatRR_of_op hop⟩

theorem decodeWord_unrecUE_iff (w : Word) :
    (∃ x nn, decodeWord w = .unrecUE x nn) ↔ fieldOp w = 0xE ∧ isFunctionE (fieldNN w) = false := by
  refine (exists_congr fun x => exists_congr fun nn =>
    decodeWord_eq_iff_encodesTo (by simp [encode]) (by simp [encode])).trans ⟨?_, ?_⟩
  · rintro ⟨x, nn, hwf, rfl⟩
    simpa [encode, Instr.wellFormed] using hwf
  · rintro ⟨hop, hout⟩
    exact ⟨_, _, congrArg not hout, formatRI_of_op hop⟩

theorem decodeWord_unrecUF_iff (w : Word) :
    (∃ x nn, decodeWord w = .unrecUF x nn) ↔ fieldOp w = 0xF ∧ isFunctionF (fieldNN w) = false := by
  refine (exists_congr fun x => exists_congr fun nn =>
    decodeWord_eq_iff_encodesTo (by simp [encode]) (by simp [encode])).trans ⟨?_, ?_⟩
  · rintro ⟨x, nn, hwf, rfl⟩
    simpa [encode, Instr.wellFormed] using hwf
  · rintro ⟨hop, hout⟩
    exact ⟨_, _, congrArg not hout, formatRI_of_op hop⟩

theorem isFunction0_fieldNNN_eq_false_iff {w : Word} (h : fieldOp w = 0x0) :
    isFunction0 (fieldNNN w) = false ↔ w ≠ 0x00E0 ∧ w ≠ 0x00EE := by
  have hw (m : Addr12) : fieldNNN w = m ↔ w = formatA 0x0 m :=
    ⟨fun e => e ▸ (formatA_of_op h).symm, fun e => e ▸ fieldNNN_formatA 0x0 m⟩
  simp only [isFunction0, List.mem_cons, List.not_mem_nil, or_false, decide_eq_false_iff_not, not_or, hw]
  rfl

theorem isFunction8_eq_false_iff (n : BitVec 4) :
    isFunction8 n = false ↔ n.toNat ∈ [0x8, 0x9, 0xA, 0xB, 0xC, 0xD, 0xF] := by
  revert n
  decide

theorem isFunctionE_eq_false_iff (nn : Byte) : isFunctionE nn = false ↔ nn.toNat ∉ [0x9E, 0xA1] := by
  simp [isFunctionE, BitVec.toNat_eq]

theorem isFunctionF_eq_false_iff (nn : Byte) :
    isFunctionF nn = false ↔ nn.toNat ∉ [0x07, 0x0A, 0x15, 0x18, 0x1E, 0x29, 0x33, 0x55, 0x65] := by
  simp [isFunctionF, BitVec.toNat_eq]

/-- Settles O5: by the round trips a word is in a class exactly when its family is the class's and its selector is none
of the family's. -/
theorem unrecognisedClassesAreTheirWords : Obligations.UnrecognisedClassesAreTheirWords := by
  intro w
  refine ⟨(decodeWord_unrecU0_iff w).trans ?_, (decodeWord_unrecU8_iff w).trans ?_,
    (decodeWord_unrecUE_iff w).trans ?_, (decodeWord_unrecUF_iff w).trans ?_⟩
  · rw [and_congr_right isFunction0_fieldNNN_eq_false_iff, fieldOp_eq_iff]
    exact and_congr_left' (Nat.div_eq_zero_iff_lt (by decide))
  · rw [fieldOp_eq_iff, isFunction8_eq_false_iff, fieldN_toNat]
    rfl
  · rw [fieldOp_eq_iff, isFunctionE_eq_false_iff, fieldNN_toNat]
    rfl
  · rw [fieldOp_eq_iff, isFunctionF_eq_false_iff, fieldNN_toNat]
    rfl

end Sys2Proof

namespace Sys2Proof.Machine

/-- Settles O1: each word is decoded by computation. -/
theorem decodesWordsOfTheSpec : Obligations.DecodesWordsOfTheSpec := by
  unfold Obligations.DecodesWordsOfTheSpec
  decide

/-- Settles O4: the fetched word is made of the two bytes that the decoder takes. -/
theorem decoderTakesTwoBytes : Obligations.DecoderTakesTwoBytes := by
  refine ⟨fun s w hfetch => ?_, fun hi lo rest => ⟨wordOfBytes hi lo, wordOfBytes_toNat hi lo, rfl⟩, fun _ => rfl,
    rfl⟩
  obtain ⟨-, rfl⟩ := fetchInsn_eq_next.mp hfetch
  exact ⟨wordOfBytes_toNat _ _, rfl⟩

end Sys2Proof.Machine
end

section
/-! PROOFS, other statements, frames and stops: which kinds of state an instruction or a host operation writes, which
fault an instruction raises, and which one is refused. The later sections go through these. -/

namespace Sys2Proof.Machine

/-! ### Frames of the updates -/

theorem Part.same_refl (p : Part) (s : State) : p.same s s := by
  cases p
  case V | mem => exact fun _ => rfl
  all_goals rfl

theorem Part.same_trans {p : Part} {s t u : State} (h : p.same s t) (h' : p.same t u) : p.same s u := by
  cases p
  case V | mem => exact fun a => (h' a).trans (h a)
  all_goals exact Eq.trans h' h

theorem keeps_refl (s : State) : Keeps [] s s := fun p _ => p.same_refl s

theorem Keeps.mono {c d : List Part} {s t : State} (h : Keeps c s t) (hcd : c ⊆ d) : Keeps d s t :=
  fun p hp => h p fun hc => hp (hcd hc)

theorem keeps_setSP (s : State) (b : Byte) : Keeps [.SP] s (s.setSP b) := by
  intro p hp
  cases p
  case SP => exact absurd (List.mem_singleton_self _) hp
  case V | mem => exact fun _ => rfl
  all_goals rfl

theorem keeps_setSlot (s : State) (k : Fin 16) (w : Word) : Keeps [.stack] s (s.setSlot k w) := by
  intro p hp
  cases p
  case stack => exact absurd (List.mem_singleton_self _) hp
  case V | mem => exact fun _ => rfl
  all_goals rfl

theorem keeps_setMode (s : State) (m : Mode) : Keeps [.mode] s (s.setMode m) := by
  intro p hp
  cases p
  case mode => exact absurd (List.mem_singleton_self _) hp
  case V | mem => exact fun _ => rfl
  all_goals rfl

theorem keeps_setKey (s : State) (k : Key) (b : Bool) : Keeps [.keys] s (s.setKey k b) := by
  intro p hp
  cases p
  case keys => exact absurd (List.mem_singleton_self _) hp
  case V | mem => exact fun _ => rfl
  all_goals rfl

theorem keeps_nextDraw (s : State) : Keeps [.draws] s s.nextDraw := by
  intro p hp
  cases p
  case draws => exact absurd (List.mem_singleton_self _) hp
  case V | mem => exact fun _ => rfl
  all_goals rfl

theorem keeps_setMem (s : State) (m : List Host.Cell) : Keeps [.mem] s (s.setMem m) := by
  intro p hp
  cases p
  case mem => exact absurd (List.mem_singleton_self _) hp
  case V => exact fun _ => rfl
  all_goals rfl

theorem keeps_putBytes (s : State) (a : Nat) (bs : List Byte) : Keeps [.mem] s (s.putBytes a bs) := by
  rw [putBytes_eq]
  exact keeps_setMem s _

theorem keeps_setRegs (s : State) (k : Nat) (bs : List Byte) : Keeps [.V] s (setRegs s k bs) := by
  obtain ⟨V, hV⟩ := setRegs_eq s k bs
  rw [hV]
  intro p hp
  cases p
  case V => exact absurd (List.mem_singleton_self _) hp
  case mem => exact fun _ => rfl
  all_goals rfl

/-! ### The frame of every instruction -/

/-- The kinds of state that an instruction writes (the destinations of the rules R121 to R252). -/
def writtenParts : Instr → List Part
  | .cls => [.fb]
  | .ret => [.pc, .SP]
  | .call _ => [.pc, .SP, .stack]
  | .jp _ | .jpV0 _ | .seImm _ _ | .sneImm _ _ | .seReg _ _ | .sneReg _ _ | .skp _ | .sknp _ => [.pc]
  | .ldImm _ _ | .addImm _ _ | .ldReg _ _ | .orReg _ _ | .andReg _ _ | .xorReg _ _ => [.V]
  | .addReg _ _ | .sub _ _ | .shr _ _ | .subn _ _ | .shl _ _ | .ldVxDt _ | .ldVxMem _ => [.V]
  | .rnd _ _ => [.V, .draws]
  | .drw _ _ _ => [.V, .fb]
  | .ldVxK _ => [.mode]
  | .ldDtVx _ => [.DT]
  | .ldStVx _ => [.ST]
  | .ldI _ | .addI _ | .ldF _ => [.I]
  | .ldB _ | .ldMemVx _ => [.mem]
  | .unrecU0 _ | .unrecU8 _ _ _ | .unrecUE _ _ | .unrecUF _ _ => []

/-- One update after another: the kinds of state that either writes. -/
theorem Keeps.trans {c d e : List Part} {s t u : State} (h : Keeps c s t) (h' : Keeps d t u)
    (hc : c ⊆ e := by simp [writtenParts]) (hd : d ⊆ e := by simp [writtenParts]) : Keeps e s u :=
  fun p hp => Part.same_trans (h.mono hc p hp) (h'.mono hd p hp)

theorem keeps_setSP_setSlot (s : State) (b : Byte) (k : Fin 16) (w : Word) :
    Keeps [.SP, .stack] s ((s.setSP b).setSlot k w) :=
  (keeps_setSP s b).trans (keeps_setSlot _ k w)

theorem keeps_setResultFlag (s : State) (x : Reg) (result flag : Byte) :
    Keeps [.V] s ((s.setReg x result).setReg 15 flag) :=
  (keeps_setReg s x result).trans (keeps_setReg _ 15 flag)

/-- The next state of an instruction differs at most in the kinds of state that it writes. -/
theorem NextState.keeps {s t : State} {i : Instr} (h : NextState s t i) : Keeps (writtenParts i) s t := by
  cases i <;> simp only [NextState] at h
  case cls => rw [h]; exact keeps_setFb s _
  case ret =>
    obtain ⟨-, -, rfl⟩ := h
    exact (keeps_setSP s _).trans (keeps_setPc _ _)
  case call =>
    obtain ⟨-, rfl⟩ := h
    exact (keeps_setSP_setSlot s _ _ _).trans (keeps_setPc _ _)
  case jp | jpV0 | seImm | sneImm | seReg | sneReg => rw [h]; exact keeps_setPc s _
  case skp | sknp => obtain ⟨-, -, rfl⟩ := h; exact keeps_setPc s _
  case ldImm | addImm | ldReg | orReg | andReg | xorReg | ldVxDt => rw [h]; exact keeps_setReg s _ _
  case addReg | sub | shr | subn | shl => rw [h]; exact keeps_setResultFlag s _ _ _
  case rnd =>
    rw [h]
    exact (keeps_nextDraw s).trans (keeps_setReg _ _ _)
  case drw =>
    obtain ⟨-, b, -, rfl⟩ := h
    exact (keeps_setFb s _).trans (keeps_setReg _ _ _)
  case ldVxK => rw [h]; exact keeps_setMode s _
  case ldDtVx => rw [h]; exact keeps_setDT s _
  case ldStVx => rw [h]; exact keeps_setST s _
  case ldI | addI | ldF => rw [h]; exact keeps_setI s _
  case ldB | ldMemVx => rw [h.2]; exact keeps_putBytes s _ _
  case ldVxMem => rw [h.2]; exact keeps_setRegs s _ _
  case unrecU0 | unrecU8 | unrecUE | unrecUF => rw [h.2]; exact keeps_refl s

/-- An instruction that does not write memory keeps its list of cells, not only its bytes. -/
theorem NextState.mem_eq {s t : State} {i : Instr} (h : NextState s t i) (hi : .mem ∉ writtenParts i) :
    t.mem = s.mem := by
  cases i <;> simp only [NextState] at h
  case ldB | ldMemVx => exact absurd (List.mem_singleton_self _) hi
  case ret => obtain ⟨-, -, rfl⟩ := h; rfl
  case call => obtain ⟨-, rfl⟩ := h; rfl
  case skp | sknp => obtain ⟨-, -, rfl⟩ := h; rfl
  case drw => obtain ⟨-, b, -, rfl⟩ := h; rfl
  case ldVxMem =>
    obtain ⟨-, rfl⟩ := h
    obtain ⟨V, hV⟩ := setRegs_eq s 0 _
    rw [hV]
  case unrecU0 | unrecU8 | unrecUE | unrecUF => rw [h.2]
  all_goals rw [h]; rfl

theorem cfg_notMem_writtenParts (i : Instr) : .cfg ∉ writtenParts i := by
  cases i <;> simp [writtenParts]

theorem NextState.cfg_eq {s t : State} {i : Instr} (h : NextState s t i) : t.cfg = s.cfg :=
  h.keeps .cfg (cfg_notMem_writtenParts i)

/-- A kind of state that an execution has changed is among those that its instruction writes. -/
theorem mem_writtenParts_of_changed {i : Instr} {s t : State} {p : Part} (h : exec i s = .next t)
    (hp : ¬p.same s t) : p ∈ writtenParts i :=
  Decidable.not_not.mp fun hn => hp (((exec_eq_next i s t).mp h).keeps p hn)

/-! ### The frame of every host operation but a step -/

/-- The kinds of state that a host operation other than a step writes (R230, R275, R286, R287). -/
def hostParts : HostOp → List Part
  | .decay => [.DT, .ST]
  | .setDown _ => [.V, .keys, .mode]
  | .setUp _ => [.keys]
  | .step | .isSet _ _ | .soundCount => []

theorem keeps_keyDownEvent (s : State) (k : Key) : Keeps [.V, .mode] s (keyDownEvent s k) := by
  unfold keyDownEvent
  split
  · exact (keeps_setReg s _ _).trans (keeps_setMode _ _)
  · exact (keeps_refl s).mono (by simp)
  · exact (keeps_refl s).mono (by simp)

theorem keeps_setDown (s : State) (k : Key) : Keeps [.V, .keys, .mode] s (setDown s k) :=
  (keeps_setKey s k true).trans (keeps_keyDownEvent _ k)

theorem keeps_decay (s : State) : Keeps [.DT, .ST] s (decay s) :=
  (keeps_setDT s _).trans (keeps_setST _ _)

theorem keeps_of_hostCall {op : HostOp} {s t : State} {r : Response} (hop : op ≠ .step)
    (h : hostCall op s = .next (t, r)) : Keeps (hostParts op) s t := by
  have h := liveCall_of_hostCall_eq_next h
  cases op
  case step => exact absurd rfl hop
  case decay => cases h; exact keeps_decay s
  case setDown => cases h; exact keeps_setDown s _
  case setUp => cases h; exact keeps_setKey s _ false
  case isSet x y =>
    obtain ⟨b, -, hb⟩ := andThen_eq_next.mp h
    cases hb
    exact keeps_refl s
  case soundCount => cases h; exact keeps_refl s

/-- A step that answers leaves the state that `step` tells. -/
theorem step_of_hostCall {s t : State} {r : Response} (h : hostCall .step s = .next (t, r)) : step s = .next t := by
  obtain ⟨u, hu, hr⟩ := andThen_eq_next.mp (liveCall_of_hostCall_eq_next h)
  cases hr
  exact hu

/-! ### Which fault an instruction raises, and when -/

/-- The fault of an instruction, and the condition under which it raises one: with `NextState` and the one refusal, all
that an execution can do. -/
def Raises (s : State) (f : Fault) : Instr → Prop
  | .ret => s.SP = 0xFF ∧ f = .stackUnderflow s.faultPc
  | .call _ => 16 ≤ stackDepthOf s.SP ∧ f = .stackOverflow s.pc s.faultPc
  | .drw _ _ n => n.val ≠ 0 ∧ 4096 < effAddr s 0 + n.val ∧ f = .memReadOob (max (effAddr s 0) 4096) s.faultPc
  | .ldVxMem x => 4096 < effAddr s 0 + (x.val + 1) ∧ f = .memReadOob (max (effAddr s 0) 4096) s.faultPc
  | .ldB _ => 4096 < effAddr s 0 + 3 ∧ f = .memWriteOob (max (effAddr s 0) 4096) s.faultPc
  | .ldMemVx x => 4096 < effAddr s 0 + (x.val + 1) ∧ f = .memWriteOob (max (effAddr s 0) 4096) s.faultPc
  | .skp x => 16 ≤ (s.reg x).toNat ∧ f = .keyIndexOob (s.reg x) s.faultPc
  | .sknp x => 16 ≤ (s.reg x).toNat ∧ f = .keyIndexOob (s.reg x) s.faultPc
  | .unrecU0 nnn => s.cfg.policy = .fault ∧ f = .unknownOpcode (encode (.unrecU0 nnn)) s.faultPc
  | .unrecU8 x y n => s.cfg.policy = .fault ∧ f = .unknownOpcode (encode (.unrecU8 x y n)) s.faultPc
  | .unrecUE x nn => s.cfg.policy = .fault ∧ f = .unknownOpcode (encode (.unrecUE x nn)) s.faultPc
  | .unrecUF x nn => s.cfg.policy = .fault ∧ f = .unknownOpcode (encode (.unrecUF x nn)) s.faultPc
  | _ => False

theorem fault_inj {α : Type} {e f : Fault} : (Host.Outcome.fault e : Result α) = .fault f ↔ f = e :=
  ⟨fun h => by injection h with h; exact h.symm, fun h => h ▸ rfl⟩

theorem keyOf_eq_none {b : Byte} : keyOf b = none ↔ 16 ≤ b.toNat := by
  simp [keyOf]

theorem unrecognised_eq_fault (w : Word) (s : State) (f : Fault) :
    unrecognised w s = .fault f ↔ s.cfg.policy = .fault ∧ f = .unknownOpcode w s.faultPc := by
  unfold unrecognised
  split
  · next h => simp [h]
  · next h => simp [h, eq_comm]

theorem readBytes_eq_fault (s : State) (a n : Nat) (f : Fault) : readBytes s a n = .fault f ↔
    n ≠ 0 ∧ 4096 < a + n ∧ f = .memReadOob (max a 4096) s.faultPc := by
  rw [readBytes_eq]
  split
  · next h => exact ⟨nofun, fun ⟨hn, hgt, _⟩ => by omega⟩
  · next h => rw [fault_inj]; exact ⟨fun hf => ⟨by omega, by omega, hf⟩, fun ⟨_, _, hf⟩ => hf⟩

theorem writeBytes_eq_fault (s : State) (a : Nat) {bs : List Byte} (hbs : bs ≠ []) (f : Fault) :
    writeBytes s a bs = .fault f ↔ 4096 < a + bs.length ∧ f = .memWriteOob (max a 4096) s.faultPc := by
  rw [writeBytes_eq]
  simp only [hbs, false_or]
  split
  · next h => exact ⟨nofun, fun ⟨hgt, _⟩ => by omega⟩
  · next h => rw [fault_inj]; exact ⟨fun hf => ⟨by omega, hf⟩, fun ⟨_, hf⟩ => hf⟩

/-- An operation followed by one that always answers faults exactly as the operation does. -/
theorem andThen_next_eq_fault {α β : Type} {r : Result α} {g : α → β} {f : Fault} :
    andThen r (fun a => .next (g a)) = .fault f ↔ r = .fault f := by
  rw [andThen_eq_fault]
  simp

theorem pop_eq_fault (s : State) (f : Fault) : pop s = .fault f ↔ s.SP = 0xFF ∧ f = .stackUnderflow s.faultPc := by
  rcases pop_cases s with ⟨h, e⟩ | ⟨h, _, e⟩ | ⟨h, _, e⟩ <;> rw [e]
  · rw [fault_inj]
    exact (and_iff_right h).symm
  · exact ⟨nofun, fun hf => absurd hf.1 h⟩
  · exact ⟨nofun, fun hf => absurd hf.1 h⟩

theorem push_eq_fault (s : State) (a : Word) (f : Fault) :
    push s a = .fault f ↔ 16 ≤ stackDepthOf s.SP ∧ f = .stackOverflow a s.faultPc := by
  rcases push_cases s a with ⟨h, e⟩ | ⟨h, e⟩ <;> rw [e]
  · exact ⟨nofun, fun hf => absurd hf.1 h.not_ge⟩
  · rw [fault_inj]
    exact (and_iff_right h).symm

/-- What an instruction can do when it faults: exactly the fault that it raises. -/
theorem exec_eq_fault (i : Instr) (s : State) (f : Fault) : exec i s = .fault f ↔ Raises s f i := by
  cases i
  case ret => exact andThen_next_eq_fault.trans (pop_eq_fault s f)
  case call => exact andThen_next_eq_fault.trans (push_eq_fault s s.pc f)
  case drw => exact andThen_next_eq_fault.trans (readBytes_eq_fault s _ _ f)
  case ldVxMem x =>
    exact (andThen_next_eq_fault.trans (readBytes_eq_fault s _ _ f)).trans (and_iff_right (Nat.succ_ne_zero _))
  case ldB => exact writeBytes_eq_fault s _ (by simp [bcdDigits]) f
  case ldMemVx x =>
    have hne : regsUpTo s x ≠ [] := fun e => by simpa [e] using regsUpTo_length s x
    refine (writeBytes_eq_fault s _ hne f).trans ?_
    rw [regsUpTo_length]
    rfl
  case skp x | sknp x =>
    simp only [exec, execSkp, execSknp, Raises, ← keyOf_eq_none]
    split
    · next h => simp [h, eq_comm]
    · next h => simp [h]
  case unrecU0 | unrecU8 | unrecUE | unrecUF => exact unrecognised_eq_fault _ s f
  all_goals exact ⟨nofun, False.elim⟩

/-- A fault of an instruction records the address of its word (R261). -/
theorem Raises.faultPc_eq {s : State} {f : Fault} {i : Instr} (h : Raises s f i) : f.faultPc = some s.faultPc := by
  cases i <;> simp only [Raises] at h
  case drw => obtain ⟨-, -, rfl⟩ := h; rfl
  all_goals obtain ⟨-, rfl⟩ := h; rfl

/-! ### Which instruction is refused, and when -/

theorem unrecognised_ne_refused (w : Word) (s : State) (q : Refusal) : unrecognised w s ≠ .refused q := by
  unfold unrecognised
  split <;> exact nofun

theorem readBytes_ne_refused (s : State) (a n : Nat) (q : Refusal) : readBytes s a n ≠ .refused q := by
  rw [readBytes_eq]
  split <;> exact nofun

theorem writeBytes_ne_refused (s : State) (a : Nat) (bs : List Byte) (q : Refusal) :
    writeBytes s a bs ≠ .refused q := by
  rw [writeBytes_eq]
  split <;> exact nofun

theorem andThen_next_eq_refused {α β : Type} {r : Result α} {g : α → β} {q : Refusal} :
    andThen r (fun a => .next (g a)) = .refused q ↔ r = .refused q := by
  rw [andThen_eq_refused]
  simp

/-- Only 00EE with an SP that is neither empty nor a slot number is refused (log 11). -/
theorem exec_eq_refused {i : Instr} {s : State} {q : Refusal} (h : exec i s = .refused q) :
    i = .ret ∧ ¬s.legalSP := by
  cases i
  case ret =>
    refine ⟨rfl, ?_⟩
    rcases pop_cases s with ⟨-, e⟩ | ⟨-, _, e⟩ | ⟨hne, hge, -⟩
    · cases e.symm.trans (andThen_next_eq_refused.mp h)
    · cases e.symm.trans (andThen_next_eq_refused.mp h)
    · exact not_or.mpr ⟨hne, hge.not_gt⟩
  case call =>
    rcases push_cases s s.pc with ⟨_, e⟩ | ⟨_, e⟩ <;> cases e.symm.trans (andThen_next_eq_refused.mp h)
  case drw | ldVxMem => exact absurd (andThen_next_eq_refused.mp h) (readBytes_ne_refused s _ _ q)
  case ldB | ldMemVx => exact absurd h (writeBytes_ne_refused s _ _ q)
  case skp x | sknp x =>
    simp only [exec, execSkp, execSknp] at h
    split at h <;> cases h
  case unrecU0 | unrecU8 | unrecUE | unrecUF => exact absurd h (unrecognised_ne_refused _ s q)
  all_goals cases h

end Sys2Proof.Machine
end

section
/-! PROOFS, other statements, creation and invariants: what a creation loads (R300, R302), that it meets the invariant,
that every host operation keeps it (R35, R38), and that a live machine in an invariant state is never stuck (R280). -/

namespace Sys2Proof.Machine

/-! ### What a step does to the fields of the invariant -/

theorem inv_of_same {s t : State} (hs : s.Inv) (hSP : t.SP = s.SP) (hmem : t.mem = s.mem) (hcfg : t.cfg = s.cfg)
    (hpc : t.pc = s.pc) (hstack : t.stack = s.stack) : t.Inv where
  spLegal := by rw [State.legalSP, hSP]; exact hs.spLegal
  memWf := by rw [hmem, hcfg]; exact hs.memWf
  pcBound := hpc ▸ hs.pcBound
  slotBound := hstack ▸ hs.slotBound

/-- The SP that a pop leaves: lowered by one, from the lowest slot to the empty value (R39). -/
theorem lowered_SP_legal {sp : Byte} (h : sp.toNat < 16) :
    (if sp = 0 then 0xFF else sp - 1) = 0xFF ∨ (if sp = 0 then 0xFF else sp - 1).toNat < 16 := by
  split
  · exact .inl rfl
  · exact .inr (by bv_omega)

/-- A push or a pop points SP at a slot or empties it (R38, R39). -/
theorem NextState.legalSP {s t : State} {i : Instr} (hs : s.legalSP) (h : NextState s t i) : t.legalSP := by
  by_cases hi : .SP ∈ writtenParts i
  · cases i <;> simp [writtenParts] at hi
    case ret =>
      obtain ⟨hlt, -, rfl⟩ := h
      exact lowered_SP_legal hlt
    case call =>
      obtain ⟨hlt, rfl⟩ := h
      exact .inr (show (s.SP + 1).toNat < 16 from stackDepthOf_legal hs ▸ hlt)
  · rw [State.legalSP, show t.SP = s.SP from h.keeps .SP hi]
    exact hs

/-- A store keeps the canonical form of memory, and no other instruction writes memory (log 8). -/
theorem NextState.memWf {s t : State} {i : Instr} (hs : Memory.wf s.cfg.font s.mem = true) (h : NextState s t i) :
    Memory.wf t.cfg.font t.mem = true := by
  by_cases hi : .mem ∈ writtenParts i
  · cases i <;> simp [writtenParts] at hi
    case ldB =>
      obtain ⟨hin, rfl⟩ := h
      exact putBytes_wf hs (.inr hin)
    case ldMemVx x =>
      obtain ⟨hin, rfl⟩ := h
      exact putBytes_wf hs (.inr (by rw [regsUpTo_length]; exact hin))
  · rw [h.mem_eq hi, h.cfg_eq]
    exact hs

/-- The only slot that an instruction writes is the one that a call gives its own pc (R39). -/
theorem NextState.slotBound {s t : State} {i : Instr} (hs : ∀ k : Fin 16, (s.stack[k.val]).toNat ≤ 0x1000)
    (hpc : s.pc.toNat ≤ 0x1000) (h : NextState s t i) (k : Fin 16) : (t.stack[k.val]).toNat ≤ 0x1000 := by
  by_cases hi : .stack ∈ writtenParts i
  · cases i <;> simp [writtenParts] at hi
    case call =>
      obtain ⟨hlt, rfl⟩ := h
      show ((s.stack.set _ s.pc)[k.val]).toNat ≤ 0x1000
      rw [Vector.getElem_set]
      split
      · exact hpc
      · exact hs k
  · have hstack : t.stack = s.stack := h.keeps .stack hi
    simpa only [hstack] using hs k

theorem pcAfterSkip_le {a : Word} (ha : a.toNat ≤ 0xFFE) (c : Bool) : (pcAfterSkip a c).toNat ≤ 0x10FE := by
  cases c
  · show (a + 2).toNat ≤ _
    bv_omega
  · show (a + 4).toNat ≤ _
    bv_omega

/-- After a step pc is at most 0x10FE, the target of BNNN with the largest operands (R35). -/
theorem pcAfter_le {s : State} (hs : ∀ k : Fin 16, (s.stack[k.val]).toNat ≤ 0x1000) {a : Word}
    (ha : a.toNat ≤ 0xFFE) (i : Instr) : (pcAfter a s i).toNat ≤ 0x10FE := by
  cases i
  case jp nnn | call nnn =>
    have := absolute_toNat nnn
    show (absolute nnn).toNat ≤ _
    omega
  case jpV0 nnn =>
    have := (s.reg 0).isLt
    refine (BitVec.toNat_ofNat ..).le.trans ?_
    omega
  case ret =>
    by_cases hlt : s.SP.toNat < 16
    · have : (s.stack[s.SP.toNat]).toNat ≤ 0x1000 := hs ⟨s.SP.toNat, hlt⟩
      simp only [pcAfter, List.getD_eq_getElem?_getD]
      simp [hlt]
      omega
    · simp [pcAfter, List.getD_eq_getElem?_getD, hlt]
  case seImm | sneImm | seReg | sneReg | skp | sknp => exact pcAfterSkip_le ha _
  all_goals
    show (a + 2).toNat ≤ 0x10FE
    bv_omega

theorem advance_toNat {s : State} (h : s.pc.toNat + 1 < 4096) : (advance s).pc.toNat = s.pc.toNat + 2 := by
  show (s.pc + 2).toNat = _
  bv_omega

/-- Settles O56: a parked engine stays as it is; a running one makes its instruction's next state, which keeps each
clause of the invariant. -/
theorem stepKeepsTheInvariant : Obligations.StepKeepsTheInvariant := by
  intro s t hs hstep
  rcases (step_eq_next s t).mp hstep with ⟨-, rfl⟩ | ⟨-, hpc, hnext⟩
  · exact hs
  · exact {
      spLegal := NextState.legalSP (s := advance s) hs.spLegal hnext
      memWf := NextState.memWf (s := advance s) hs.memWf hnext
      pcBound := hnext.pc_eq ▸ pcAfter_le hs.slotBound (by omega) _
      slotBound := NextState.slotBound (s := advance s) hs.slotBound (by rw [advance_toNat hpc]; omega) hnext }

/-! ### Host operations -/

theorem keyDownEvent_inv {s : State} (hs : s.Inv) (k : Key) : (keyDownEvent s k).Inv := by
  unfold keyDownEvent
  split
  · exact inv_of_same hs rfl rfl rfl rfl rfl
  · exact hs
  · exact hs

theorem hostCall_inv {op : HostOp} {s t : State} {r : Response} (hs : s.Inv) (h : hostCall op s = .next (t, r)) :
    t.Inv := by
  cases op
  case step => exact stepKeepsTheInvariant s t hs (step_of_hostCall h)
  all_goals have h := liveCall_of_hostCall_eq_next h
  case decay => cases h; exact inv_of_same hs rfl rfl rfl rfl rfl
  case setDown => cases h; exact keyDownEvent_inv (s := s.setKey _ true) (inv_of_same hs rfl rfl rfl rfl rfl) _
  case setUp => cases h; exact inv_of_same hs rfl rfl rfl rfl rfl
  case isSet x y =>
    obtain ⟨b, -, hb⟩ := andThen_eq_next.mp h
    cases hb
    exact hs
  case soundCount => cases h; exact hs

/-- Settles O57, by induction on the operations. -/
theorem everyRunKeepsTheInvariant : Obligations.EveryRunKeepsTheInvariant := by
  intro ops
  induction ops with
  | nil => rintro s t hs ⟨⟩; exact hs
  | cons op rest ih =>
    intro s t hs hrun
    obtain ⟨⟨u, r⟩, hcall, hrest⟩ := andThen_eq_next.mp hrun
    exact ih u t (hostCall_inv hs hcall) hrest

/-! ### Creation -/

theorem created_inv (cfg : Config) : (created cfg).Inv where
  spLegal := .inl rfl
  memWf := rfl
  pcBound := Nat.zero_le _
  slotBound k := by simp [created]

/-- What a creation can do: load the image at LOAD_OFFSET, or fault with the length of one that is too long (R302). -/
theorem create_eq (cfg : Config) (image : List Byte) : create cfg image =
    if image.length ≤ 3584 then .next (((created cfg).putBytes 0x200 image).setPc 0x200)
    else .fault (.imageTooLarge image.length) := by
  unfold create load
  rw [show Config.memSize - Config.loadOffset = 3584 from rfl]
  split
  · next h => rw [if_neg (Nat.not_le.mpr h)]; rfl
  · next h => rw [if_pos (Nat.not_lt.mp h)]; rfl

/-- Settles O58: the creation meets the invariant, and a load writes memory inside its bounds and sets pc. -/
theorem creationMeetsTheInvariant : Obligations.CreationMeetsTheInvariant := by
  intro cfg image s h
  rw [create_eq] at h
  split at h
  · next hlen =>
    cases h
    have hs := created_inv cfg
    exact {
      spLegal := by rw [putBytes_eq]; exact hs.spLegal
      memWf := putBytes_wf hs.memWf (.inr (show 0x200 + image.length ≤ 4096 by omega))
      pcBound := show (0x200 : Word).toNat ≤ 0x10FE by decide
      slotBound := by rw [putBytes_eq]; exact hs.slotBound }
  · cases h

/-- Settles O54: the load puts the image over the creation's memory and sets pc; a byte outside the image is the
creation's. -/
theorem creationLoadsTheImage : Obligations.CreationLoadsTheImage := by
  intro cfg image
  refine ⟨fun hlen => ?_, fun hlen => by rw [create_eq, if_neg hlen.not_ge], rfl⟩
  have hbyte (a : Nat) := putBytes_byteAt (s := created cfg) (a := 0x200) (bs := image) rfl
    (.inr (show 0x200 + image.length ≤ 4096 by omega)) a
  have hold (a : Nat) : (created cfg).byteAt a = initialByte cfg.font a := rfl
  refine ⟨_, by rw [create_eq, if_pos hlen], ?_⟩
  simp only [State.setPc_byteAt, hbyte, hold]
  rw [putBytes_eq]
  refine ⟨?_, rfl, rfl, rfl, ?_, rfl, rfl, ?_, Grid.pixel_blank, rfl, rfl, ?_, ?_, ?_, ?_⟩
  · intro r; simp [State.reg, created]
  · intro k; simp [created]
  · intro k; simp [created]
  · intro a ha
    rw [if_neg (by omega), initialByte, dif_pos ha]
  · intro a ha hlow
    rw [if_neg (by omega), initialByte, dif_neg (Nat.not_lt.mpr ha)]
  · intro j hj
    simp [hj]
  · intro a ha
    rw [if_pos (by omega), List.getElem?_eq_none (by omega), initialByte, dif_neg (show ¬a < 80 by omega)]
    rfl

/-- Settles O55: the reset state is the creation with the default configuration and an empty image. -/
theorem resetMeetsTheInvariant : Obligations.ResetMeetsTheInvariant := by
  obtain ⟨-, -, hreset⟩ := creationLoadsTheImage Config.standard []
  exact creationMeetsTheInvariant Config.standard [] _ hreset

/-! ### A live machine is never stuck -/

theorem step_ne_refused {s : State} (hs : s.legalSP) (hlive : ∀ f, s.mode ≠ .halted f) (q : Refusal) :
    step s ≠ .refused q := by
  intro h
  unfold step at h
  split at h
  · next f hf => exact hlive f hf
  · cases h
  · rw [fetchInsn_eq] at h
    split at h
    · exact (exec_eq_refused h).2 hs
    · cases h

theorem isSet_ne_refused (s : State) (x y : Nat) (q : Refusal) : isSet s x y ≠ .refused q := by
  unfold isSet
  split <;> exact nofun

/-- Settles O59: only a return with an illegal SP is refused, and a live machine in an invariant state has a legal
one. -/
theorem liveMachineIsNeverStuck : Obligations.LiveMachineIsNeverStuck := by
  refine ⟨fun _ _ _ => exec_eq_refused, fun op s q hs hlive h => ?_⟩
  rw [hostCall_of_not_halted hlive] at h
  cases op
  case step => exact step_ne_refused hs.spLegal hlive q (andThen_next_eq_refused.mp h)
  case isSet x y => exact isSet_ne_refused s x y q (andThen_next_eq_refused.mp h)
  all_goals cases h

end Sys2Proof.Machine
end

section
/-! PROOFS, other statements, the step, its faults, and the rules about every instruction (R90, R207, R260 to R263, R32,
R36, R41, R48): each rule is the contraposition of a frame. -/

namespace Sys2Proof.Machine

/-! ### The step (R90) -/

theorem step_of_running {s : State} (hrun : s.mode = .running) (hin : s.pc.toNat + 1 < 4096) :
    step s = exec (decodeWord (wordOfBytes (s.byteAt s.pc.toNat) (s.byteAt (s.pc.toNat + 1)))) (advance s) := by
  simp [step, hrun, fetchInsn_eq, hin]

theorem hostCall_step_of_next {s t : State} (hlive : ∀ f, s.mode ≠ .halted f) (h : step s = .next t) :
    hostCall .step s = .next (t, stepStatus s) := by
  rw [hostCall_of_not_halted hlive]
  simp [liveCall, h]

/-- Settles O6, mode by mode: the decoder reads the word that the step fetches. -/
theorem stepRunsTheDecodedInstruction : Obligations.StepRunsTheDecodedInstruction := by
  intro s
  refine ⟨fun hrun hin i hdec => ?_, step_of_fetch_outOfBounds, fun x hwait => ?_, fun f hhalt => ?_⟩
  · cases hdec
    refine ⟨step_of_running hrun hin, fun t ht => ?_⟩
    rw [hostCall_step_of_next (by simp [hrun]) ht]
    simp [stepStatus, hrun]
  · have hstep : step s = .next s := (step_eq_next s s).mpr (.inl ⟨⟨x, hwait⟩, rfl⟩)
    refine ⟨hstep, ?_⟩
    rw [hostCall_step_of_next (by simp [hwait]) hstep]
    simp [stepStatus, hwait]
  · simp [step, hostCall, hhalt]

/-- Settles O10: the step fetches a jump to the address that it was fetched from. -/
theorem selfJumpChangesNothing : Obligations.SelfJumpChangesNothing := by
  rintro s ⟨hrun, nnn, hfetch, htarget⟩
  obtain ⟨hin, hw⟩ := fetchInsn_eq_next.mp hfetch
  have hdec : decodeWord (formatA 0x1 nnn) = .jp nnn := decodeOfEncodeGivesBack (.jp nnn) rfl
  rw [step_of_running hrun hin, ← hw, hdec, exec_eq_next]
  show s = (advance s).setPc (absolute nnn)
  rw [htarget]
  rfl

/-! ### Faults (R260 to R263) -/

/-- Settles O48: the states after a fault are `haltedState` of any state with the same configuration; a halted machine's
calls are all refused, and a refusal leaves no state. -/
theorem faultsHaltForGood : Obligations.FaultsHaltForGood := by
  refine ⟨fun op s f h s' => ?_, fun op s f hhalt => ?_⟩
  · rw [Transaction, h]
    constructor
    · rintro ⟨leftover, hcfg, rfl⟩
      exact ⟨rfl, hcfg⟩
    · rintro ⟨hmode, hcfg⟩
      exact ⟨s', hcfg, by rw [haltedState, ← hmode]⟩
  · have hcall : hostCall op s = .refused .haltedMachine := by simp [hostCall, hhalt]
    refine ⟨hcall, fun s' h => ?_⟩
    rw [Transaction, hcall] at h
    exact h

/-- Settles O49: a fault is the fetch's own, at pc, or the instruction's, whose record has pc before the advance. -/
theorem stepFaultNamesItsWord : Obligations.StepFaultNamesItsWord := by
  intro s f h
  unfold step at h
  split at h
  · cases h
  · cases h
  · rw [fetchInsn_eq] at h
    split at h
    · rw [((exec_eq_fault _ _ f).mp h).faultPc_eq, advance_faultPc]
    · cases h
      rfl

/-- Settles O50: by the one fault that each instruction raises. -/
theorem instructionFaultKinds : Obligations.InstructionFaultKinds := by
  intro i s f h
  have h := (exec_eq_fault i s f).mp h
  cases i <;> simp only [Raises] at h
  case drw => obtain ⟨-, -, rfl⟩ := h; simp [Fault.code, Fault.info]
  case skp x | sknp x =>
    obtain ⟨hx, rfl⟩ := h
    simp [Fault.code, Fault.info]
    omega
  case unrecU0 | unrecU8 | unrecUE | unrecUF =>
    obtain ⟨hpol, rfl⟩ := h
    simp [Fault.code, Fault.info, hpol]
  all_goals
    obtain ⟨-, rfl⟩ := h
    simp [Fault.code, Fault.info]

/-! ### Which instructions and host operations write which kind of state -/

/-- Settles O38: the framebuffer is among the written kinds of state of no other instruction and of no host
operation. -/
theorem framebufferChangesOnlyByDrawing : Obligations.FramebufferChangesOnlyByDrawing := by
  refine ⟨fun i s t h hfb => ?_, fun op s t r hop h => ?_⟩
  · have hmem : .fb ∈ writtenParts i := mem_writtenParts_of_changed h hfb
    cases i <;> simp [writtenParts] at hmem ⊢
  · exact keeps_of_hostCall hop h .fb (by cases op <;> simp [hostParts])

/-- Settles O46: each timer is among the written kinds of state of its one instruction, and of decay. -/
theorem timersChangeOnlyBySetAndDecay : Obligations.TimersChangeOnlyBySetAndDecay := by
  refine ⟨fun i s t h => ⟨fun hDT => ?_, fun hST => ?_⟩, fun op s t r hstep hdecay h => ?_⟩
  · have hmem : .DT ∈ writtenParts i := mem_writtenParts_of_changed h hDT
    cases i <;> simp [writtenParts] at hmem ⊢
  · have hmem : .ST ∈ writtenParts i := mem_writtenParts_of_changed h hST
    cases i <;> simp [writtenParts] at hmem ⊢
  · have hkeeps := keeps_of_hostCall hstep h
    cases op
    case decay => exact absurd rfl hdecay
    all_goals exact ⟨hkeeps .DT (by simp [hostParts]), hkeeps .ST (by simp [hostParts])⟩

/-- Settles O42: the mode is among the written kinds of state of FX0A and of a key-down alone, and pc of no host
operation; a step of a parked engine is the same state. -/
theorem onlyKeyDownEndsTheWait : Obligations.OnlyKeyDownEndsTheWait := by
  refine ⟨fun i s t h hmode => ?_, fun op s t r x hwait h => ?_⟩
  · have hmem : .mode ∈ writtenParts i := mem_writtenParts_of_changed h hmode
    cases i <;> simp [writtenParts] at hmem ⊢
  · by_cases hop : op = .step
    · subst hop
      rcases (step_eq_next s t).mp (step_of_hostCall h) with ⟨-, rfl⟩ | ⟨hrun, -⟩
      · exact ⟨.inl hwait, rfl⟩
      · rw [hwait] at hrun
        cases hrun
    · have hkeeps := keeps_of_hostCall hop h
      refine ⟨?_, hkeeps .pc (by cases op <;> simp [hostParts])⟩
      cases op
      case step => exact absurd rfl hop
      case setDown k => exact .inr ⟨k, rfl⟩
      all_goals exact .inl ((hkeeps .mode (by simp [hostParts])).trans hwait)

/-- Settles O52: by the written kinds of state of every instruction; memory's list of cells is the same where memory is
not among them. -/
theorem indexMemoryAndKeysWriters : Obligations.IndexMemoryAndKeysWriters := by
  intro i s t h
  have hnext := (exec_eq_next i s t).mp h
  refine ⟨fun hI => ?_, fun hmem => ?_, hnext.keeps .keys ?_, hnext.cfg_eq, fun hdraws => ?_⟩
  · have hmem : .I ∈ writtenParts i := mem_writtenParts_of_changed h hI
    cases i <;> simp [writtenParts] at hmem ⊢
  · have hmem : .mem ∈ writtenParts i := Decidable.not_not.mp fun hi => hmem (hnext.mem_eq hi)
    cases i <;> simp [writtenParts] at hmem ⊢
  · cases i <;> simp [writtenParts]
  · have hmem : .draws ∈ writtenParts i := mem_writtenParts_of_changed h hdraws
    cases i <;> simp [writtenParts] at hmem ⊢

/-- A register that is no destination and no flag of the instruction keeps its value. -/
theorem NextState.reg_eq {s t : State} {i : Instr} (h : NextState s t i) {r : Reg} (hdest : i.hasDest r = false)
    (hflag : r = 15 → i.writesFlag = false) : t.reg r = s.reg r := by
  by_cases hi : .V ∈ writtenParts i
  · cases i <;> simp [writtenParts] at hi <;> simp only [NextState] at h
    case drw =>
      obtain ⟨-, b, -, rfl⟩ := h
      exact State.setReg_reg_ne _ _ fun e => nomatch hflag e
    case ldVxMem x =>
      have hx : ¬r ≤ x := of_decide_eq_false hdest
      rw [h.2, setRegs_reg, if_pos (Nat.zero_le _), List.getElem?_eq_none (by simpa using hx)]
      rfl
    all_goals have hx := Ne.symm (beq_eq_false_iff_ne.mp hdest)
    case addReg | sub | shr | subn | shl =>
      have h15 : r ≠ 15 := fun e => nomatch hflag e
      rw [h, State.setReg_reg_ne _ _ h15, State.setReg_reg_ne _ _ hx]
    case rnd => rw [h, State.setReg_reg_ne _ _ hx, State.nextDraw_reg]
    all_goals rw [h, State.setReg_reg_ne _ _ hx]
  · exact h.keeps .V hi r

/-- Settles O51: the contraposition of the frame of every register. -/
theorem registersChangeOnlyAsDestinations : Obligations.RegistersChangeOnlyAsDestinations := by
  intro i s t r h hne
  have hnext := (exec_eq_next i s t).mp h
  by_contra hnot
  rw [not_or, Bool.not_eq_true, not_and, Bool.not_eq_true] at hnot
  obtain ⟨hdest, hflag⟩ := hnot
  exact hne (hnext.reg_eq hdest hflag)

end Sys2Proof.Machine
end

section
/-! PROOFS, other statements, ALU, random and unrecognised words (R101, R150 to R165): the values of the results and
flags, and the frame of a result with its flag. -/

namespace Sys2Proof.Machine

/-! ### The values of the results and flags, as numbers -/

theorem addResult_toNat (a b : Byte) : (addResult a b).toNat = (a.toNat + b.toNat) % 256 :=
  BitVec.toNat_ofNat ..

theorem subResult_toNat (a b : Byte) : (subResult a b).toNat = (a.toNat + 256 - b.toNat) % 256 := by
  have ha := a.isLt
  have hb := b.isLt
  rw [subResult, BitVec.toNat_ofInt]
  omega

theorem shrResult_toNat (a : Byte) : (shrResult a).toNat = a.toNat / 2 := by
  rw [shrResult, BitVec.toNat_ushiftRight, Nat.shiftRight_one]

theorem shlResult_toNat (a : Byte) : (shlResult a).toNat = 2 * a.toNat % 256 := by
  rw [shlResult, BitVec.toNat_shiftLeft, Nat.shiftLeft_eq, Nat.mul_comm]

theorem shrFlag_toNat (a : Byte) : (shrFlag a).toNat = a.toNat % 2 :=
  (BitVec.toNat_and ..).trans (Nat.and_one_is_mod _)

/-- Bit 7 of a byte is its quotient by 128, which is already below 2. -/
theorem shlFlag_toNat (a : Byte) : (shlFlag a).toNat = a.toNat / 128 := by
  have ha := a.isLt
  refine (shrFlag_toNat (a >>> 7)).trans ?_
  rw [BitVec.toNat_ushiftRight, Nat.shiftRight_eq_div_pow]
  omega

theorem bool2u8_decide (p : Prop) [Decidable p] : bool2u8 (decide p) = if p then 1 else 0 := by
  by_cases h : p <;> simp [bool2u8, h]

/-- The two flags of a pair of operands: one of them is set exactly when the operands differ (R165). -/
theorem subFlag_add_subFlag (a b : Byte) :
    (subFlag a b).toNat + (subFlag b a).toNat = if a = b then 0 else 1 := by
  rw [subFlag, subFlag, bool2u8_decide, bool2u8_decide]
  rcases Nat.lt_trichotomy a.toNat b.toNat with h | h | h
  · have hne : a ≠ b := fun e => by simp [e] at h
    simp [h, h.le.not_gt, hne]
  · simp [BitVec.eq_of_toNat_eq h]
  · have hne : a ≠ b := fun e => by simp [e] at h
    simp [h, h.le.not_gt, hne]

/-! ### A result and then a flag -/

section
variable (s : State) (x : Reg) (result flag : Byte)

theorem keepsRegs_setResultFlag : KeepsRegs [x, 15] s ((s.setReg x result).setReg 15 flag) := fun r hr => by
  simp only [List.mem_cons, List.not_mem_nil, or_false, not_or] at hr
  rw [State.setReg_reg_ne _ _ hr.2, State.setReg_reg_ne _ _ hr.1]

theorem setResultFlag_reg_result (hx : x ≠ 15) : ((s.setReg x result).setReg 15 flag).reg x = result := by
  rw [State.setReg_reg_ne _ _ hx, State.setReg_reg_self]

theorem setResultFlag_reg_flag : ((s.setReg x result).setReg 15 flag).reg 15 = flag := State.setReg_reg_self ..

end

/-! ### The obligations -/

/-- Settles O12: one write of register X with the sum. -/
theorem addImmediateWritesNoFlag : Obligations.AddImmediateWritesNoFlag := by
  intro s x nn
  refine ⟨_, (exec_eq_next (.addImm x nn) s _).mpr rfl, ?_, keepsRegs_setReg s x _, keeps_setReg s x _⟩
  rw [State.setReg_reg_self, addResult_toNat]

/-- Settles O13: one write of register X with the result, whose bits are those of the operation. -/
theorem bitwiseLogicWritesNoFlag : Obligations.BitwiseLogicWritesNoFlag := by
  intro s x y
  refine ⟨⟨_, (exec_eq_next (.orReg x y) s _).mpr rfl, keepsRegs_setReg s x _, keeps_setReg s x _, fun k => ?_⟩,
    ⟨_, (exec_eq_next (.andReg x y) s _).mpr rfl, keepsRegs_setReg s x _, keeps_setReg s x _, fun k => ?_⟩,
    ⟨_, (exec_eq_next (.xorReg x y) s _).mpr rfl, keepsRegs_setReg s x _, keeps_setReg s x _, fun k => ?_⟩⟩
  · rw [State.setReg_reg_self, BitVec.getLsbD_or]
  · rw [State.setReg_reg_self, BitVec.getLsbD_and]
  · rw [State.setReg_reg_self, BitVec.getLsbD_xor]

/-- Settles O14: a write of the sum and then of the carry, both of the operands before any write. -/
theorem addRegistersSetsCarry : Obligations.AddRegistersSetsCarry := by
  intro s x y
  refine ⟨_, (exec_eq_next (.addReg x y) s _).mpr rfl, keepsRegs_setResultFlag s x _ _, keeps_setResultFlag s x _ _,
    fun hx => ?_, ?_⟩
  · rw [setResultFlag_reg_result s x _ _ hx, addResult_toNat]
  · rw [setResultFlag_reg_flag, addFlag, bool2u8_decide]

/-- Settles O15: each subtraction is a write of the difference and then of its flag. -/
theorem subtractionsSetStrictFlag : Obligations.SubtractionsSetStrictFlag := by
  intro s x y
  refine ⟨⟨_, (exec_eq_next (.sub x y) s _).mpr rfl, keepsRegs_setResultFlag s x _ _, keeps_setResultFlag s x _ _,
      fun hx => ?_, ?_⟩,
    ⟨_, (exec_eq_next (.subn x y) s _).mpr rfl, keepsRegs_setResultFlag s x _ _, keeps_setResultFlag s x _ _,
      fun hx => ?_, ?_⟩, fun t u ht hu => ?_⟩
  · rw [setResultFlag_reg_result s x _ _ hx, subResult_toNat]
  · rw [setResultFlag_reg_flag, subFlag, bool2u8_decide]
  · rw [setResultFlag_reg_result s x _ _ hx, subResult_toNat]
  · rw [setResultFlag_reg_flag, subFlag, bool2u8_decide]
  · obtain rfl := (exec_eq_next (.sub x y) s t).mp ht
    obtain rfl := (exec_eq_next (.subn x y) s u).mp hu
    rw [setResultFlag_reg_flag, setResultFlag_reg_flag, subFlag_add_subFlag]

/-- Settles O16: each shift is a write of the shifted VX and then of the bit shifted out, in which VY does not occur. -/
theorem shiftsIgnoreVy : Obligations.ShiftsIgnoreVy := by
  intro s x y
  refine ⟨⟨_, (exec_eq_next (.shr x y) s _).mpr rfl, keepsRegs_setResultFlag s x _ _, keeps_setResultFlag s x _ _,
      fun hx => ?_, ?_, fun z => (exec_eq_next (.shr x z) s _).mpr rfl⟩,
    ⟨_, (exec_eq_next (.shl x y) s _).mpr rfl, keepsRegs_setResultFlag s x _ _, keeps_setResultFlag s x _ _,
      fun hx => ?_, ?_, fun z => (exec_eq_next (.shl x z) s _).mpr rfl⟩⟩
  · rw [setResultFlag_reg_result s x _ _ hx, shrResult_toNat]
  · rw [setResultFlag_reg_flag, shrFlag_toNat]
  · rw [setResultFlag_reg_result s x _ _ hx, shlResult_toNat]
  · rw [setResultFlag_reg_flag, shlFlag_toNat]

/-- Settles O17: the draw is counted and register X is written with the masked byte, whatever the byte. -/
theorem randomByteIsMasked : Obligations.RandomByteIsMasked := by
  intro s x nn
  have hnext : NextState s (s.nextDraw.setReg x (Config.draw s.draws &&& nn)) (.rnd x nn) := rfl
  refine ⟨_, (exec_eq_next (.rnd x nn) s _).mpr hnext, State.setReg_reg_self .., rfl, fun k hk => ?_,
    keepsRegs_setReg s.nextDraw x _, hnext.keeps⟩
  rw [State.setReg_reg_self, BitVec.getLsbD_and, hk, Bool.and_false]

/-- Settles O26: every unrecognised class has the same meaning, which is the policy's. -/
theorem unrecognisedWordsIgnoredOrFault : Obligations.UnrecognisedWordsIgnoredOrFault := by
  rintro s i (⟨nnn, rfl⟩ | ⟨x, y, n, rfl⟩ | ⟨x, nn, rfl⟩ | ⟨x, nn, rfl⟩)
  all_goals
    exact ⟨fun hpol => (exec_eq_next _ s s).mpr ⟨hpol, rfl⟩, fun hpol => (exec_eq_fault _ s _).mpr ⟨hpol, rfl⟩⟩

end Sys2Proof.Machine
end

section
/-! PROOFS, other statements, control flow and the call stack (R39, R40, R121 to R128). -/

namespace Sys2Proof.Machine

/-! ### Jumps and skips -/

theorem offsetTarget_toNat (s : State) (nnn : Addr12) :
    (offsetTarget s nnn).toNat = nnn.toNat + (s.reg 0).toNat := by
  have h0 := (s.reg 0).isLt
  rw [offsetTarget_eq_ofNat, BitVec.toNat_ofNat]
  omega

/-- Settles O20: one write of pc, and the largest sum is below the word size. -/
theorem jumpOffsetAddsV0 : Obligations.JumpOffsetAddsV0 := fun s nnn =>
  ⟨_, (exec_eq_next (.jpV0 nnn) s _).mpr rfl, offsetTarget_toNat s nnn, keeps_setPc s _⟩

/-- Settles O25: no low nibble is tested, and each skip is one write of pc. -/
theorem skipsOnRegisters : Obligations.SkipsOnRegisters := by
  intro s x y n
  refine ⟨⟨by simp [decodeWord], _, (exec_eq_next (.seReg x y) s _).mpr rfl, ?_, keeps_setPc s _⟩,
    ⟨by simp [decodeWord], _, (exec_eq_next (.sneReg x y) s _).mpr rfl, ?_, keeps_setPc s _⟩⟩
  · simp
  · simp

/-! ### SP and the slot that it points to (R38, R39) -/

theorem lowered_SP_succ {sp : Byte} (h : sp = 0xFF ∨ sp.toNat < 16) :
    (if sp + 1 = 0 then 0xFF else sp + 1 - 1) = sp := by
  rcases h with rfl | h
  · rfl
  · rw [if_neg (by bv_omega), BitVec.add_sub_cancel]

theorem succ_lowered_SP (sp : Byte) : (if sp = 0 then 0xFF else sp - 1) + 1 = sp := by
  split
  · next h => rw [h]; rfl
  · exact BitVec.sub_add_cancel sp 1

theorem succ_SP_toNat_lt {sp : Byte} (h : sp = 0xFF ∨ sp.toNat < 15) : (sp + 1).toNat < 16 := by
  rcases h with rfl | h
  · decide
  · bv_omega

/-- The slots after a push, by the number that SP then holds. -/
theorem getElem_setSlot (s : State) (k : Fin 16) (w : Word) (j : Fin 16) :
    (s.setSlot k w).stack[j.val] = if j.val = k.val then w else s.stack[j.val] := by
  simp only [State.setSlot_stack, Vector.getElem_set, eq_comm]

/-- With a slot free, a call writes the slot that the raised SP points to. -/
theorem exec_call_of_free {s : State} (nnn : Addr12) (h : s.SP = 0xFF ∨ s.SP.toNat < 15) :
    exec (.call nnn) s = .next (((s.setSP (s.SP + 1)).setSlot ⟨(s.SP + 1).toNat, succ_SP_toNat_lt h⟩ s.pc).setPc
      (absolute nnn)) := by
  have hd : stackDepthOf s.SP = (s.SP + 1).toNat := stackDepthOf_legal (h.imp_right (by omega))
  have hlt := succ_SP_toNat_lt h
  rw [exec_eq_next]
  exact ⟨hd ▸ hlt, by simp only [hd]⟩

/-- With a slot occupied, a return reads it into pc and lowers SP. -/
theorem exec_ret_of_occupied {s : State} (h : s.SP.toNat < 16) :
    exec .ret s = .next ((s.setSP (if s.SP = 0 then 0xFF else s.SP - 1)).setPc s.stack[s.SP.toNat]) :=
  (exec_eq_next .ret s _).mpr ⟨h, by bv_omega, rfl⟩

/-- Settles O18: the return reads the slot that SP points to and lowers SP. -/
theorem returnPopsTheTopSlot : Obligations.ReturnPopsTheTopSlot := by
  refine ⟨rfl, fun s => ⟨fun hlt => ?_, fun hempty => (exec_eq_fault .ret s _).mpr ⟨hempty, rfl⟩⟩⟩
  have hexec := exec_ret_of_occupied hlt
  exact ⟨_, hexec, rfl, rfl, ((exec_eq_next .ret s _).mp hexec).keeps⟩

/-- Settles O21: the call is a push of pc and a write of pc; with 16 slots occupied the push overflows. -/
theorem callPushesTheAdvancedPc : Obligations.CallPushesTheAdvancedPc := by
  intro s nnn
  refine ⟨decodeOfEncodeGivesBack (.call nnn) rfl, fun hfree => ?_, fun hfull => ?_⟩
  · have hexec := exec_call_of_free nnn hfree
    exact ⟨_, hexec, absolute_toNat nnn, rfl, getElem_setSlot (s.setSP (s.SP + 1)) _ s.pc,
      ((exec_eq_next _ s _).mp hexec).keeps⟩
  · have hne : s.SP ≠ 0xFF := by bv_omega
    refine (exec_eq_fault (.call nnn) s _).mpr ⟨?_, rfl⟩
    rw [stackDepthOf, if_neg hne, hfull]

/-- Settles O22: the return reads the slot that the call wrote and lowers the SP that the call raised. -/
theorem callThenReturnComesBack : Obligations.CallThenReturnComesBack := by
  intro s nnn hfree
  have hlt := succ_SP_toNat_lt hfree
  have hcall := exec_call_of_free nnn hfree
  have hslots := getElem_setSlot (s.setSP (s.SP + 1)) ⟨(s.SP + 1).toNat, hlt⟩ s.pc
  refine ⟨_, _, hcall, exec_ret_of_occupied hlt, (hslots ⟨_, hlt⟩).trans (if_pos rfl), ?_, hslots⟩
  intro p hp
  cases p
  case stack => exact absurd (List.mem_singleton_self _) hp
  case pc => exact (hslots ⟨_, hlt⟩).trans (if_pos rfl)
  case SP => exact lowered_SP_succ (hfree.imp_right (by omega))
  case V | mem => exact fun _ => rfl
  all_goals rfl

/-! ### The occupied slots as a list, the last push first (R39, R40) -/

/-- The addresses in the occupied slots, the top slot's first. -/
def occupied (s : State) : List Word := (s.stack.toList.take (stackDepthOf s.SP)).reverse

theorem occupied_of_empty {s : State} (h : s.SP = 0xFF) : occupied s = [] := by
  simp [occupied, h, stackDepthOf]

theorem stackDepthOf_le {s : State} (hs : s.legalSP) : stackDepthOf s.SP ≤ 16 := by
  unfold stackDepthOf
  split
  · omega
  · next h => exact hs.resolve_left h

theorem occupied_length {s : State} (hs : s.legalSP) : (occupied s).length = stackDepthOf s.SP := by
  have := stackDepthOf_le hs
  simp [occupied, this]

/-- A push with a slot free puts its address on top of the occupied slots. -/
theorem push_of_free {s : State} (hs : s.legalSP) (a : Word) (h : (occupied s).length < 16) :
    ∃ t, push s a = .next t ∧ t.legalSP ∧ t.pc = s.pc ∧ occupied t = a :: occupied s := by
  rw [occupied_length hs] at h
  have hd := stackDepthOf_legal hs
  rcases push_cases s a with ⟨hlt, e⟩ | ⟨hge, -⟩
  · have hdepth : stackDepthOf (s.SP + 1) = stackDepthOf s.SP + 1 := by
      rw [stackDepthOf, if_neg (by bv_omega), hd]
    refine ⟨_, e, .inr (show (s.SP + 1).toNat < 16 by omega), rfl, ?_⟩
    show ((s.stack.set _ a).toList.take (stackDepthOf (s.SP + 1))).reverse = _
    rw [hdepth, Vector.toList_set, List.take_succ_eq_append_getElem (by simpa using h), List.reverse_append]
    simp [occupied, List.take_set_of_le]
  · omega

theorem push_of_full {s : State} (hs : s.legalSP) (a : Word) (h : (occupied s).length = 16) :
    push s a = .fault (.stackOverflow a (s.pc - 2)) :=
  (push_eq_fault s a _).mpr ⟨by rw [← occupied_length hs, h], rfl⟩

/-- A pop answers the address on top of the occupied slots and leaves the others. -/
theorem pop_of_occupied {s : State} (hs : s.legalSP) {a : Word} {rest : List Word} (h : occupied s = a :: rest) :
    ∃ t, pop s = .next (a, t) ∧ t.legalSP ∧ occupied t = rest := by
  have hne : s.SP ≠ 0xFF := fun e => by simp [occupied_of_empty e] at h
  rcases pop_cases s with ⟨he, -⟩ | ⟨-, hlt, e⟩ | ⟨-, hge, -⟩
  · exact absurd he hne
  · have hsp : occupied s = s.stack[s.SP.toNat] :: (s.stack.toList.take s.SP.toNat).reverse := by
      rw [occupied, stackDepthOf, if_neg hne, List.take_succ_eq_append_getElem (by simpa using hlt)]
      simp
    obtain ⟨rfl, rfl⟩ := List.cons.inj (hsp.symm.trans h)
    refine ⟨_, e, lowered_SP_legal hlt, ?_⟩
    show (s.stack.toList.take (stackDepthOf (if s.SP = 0 then 0xFF else s.SP - 1))).reverse = _
    rw [stackDepthOf_legal (lowered_SP_legal hlt), succ_lowered_SP]
  · exact absurd (hs.resolve_left hne) (by show ¬_ < 16; omega)

theorem pushAll_append (as bs : List Word) (s : State) :
    pushAll (as ++ bs) s = andThen (pushAll as s) (pushAll bs) := by
  induction as generalizing s with
  | nil => rfl
  | cons a rest ih =>
    show andThen (push s a) _ = andThen (andThen (push s a) _) _
    cases push s a with
    | next t => exact ih t
    | fault f => rfl
    | refused q => rfl

theorem pushAll_of_free {s : State} (hs : s.legalSP) {as : List Word} (h : as.length + (occupied s).length ≤ 16) :
    ∃ t, pushAll as s = .next t ∧ t.legalSP ∧ t.pc = s.pc ∧ occupied t = as.reverse ++ occupied s := by
  induction as generalizing s with
  | nil => exact ⟨s, rfl, hs, rfl, rfl⟩
  | cons a rest ih =>
    rw [List.length_cons] at h
    obtain ⟨t, ht, htl, htpc, htocc⟩ := push_of_free hs a (by omega)
    obtain ⟨u, hu, hul, hupc, huocc⟩ := ih htl (by rw [htocc, List.length_cons]; omega)
    refine ⟨u, ?_, hul, hupc.trans htpc, by simp [huocc, htocc]⟩
    rw [pushAll, ht, andThen_next, hu]

theorem popAll_of_occupied {s : State} (hs : s.legalSP) {as : List Word} (h : occupied s = as) :
    popAll as.length s = .next as := by
  induction as generalizing s with
  | nil => rfl
  | cons a rest ih =>
    obtain ⟨t, ht, htl, htocc⟩ := pop_of_occupied hs h
    rw [List.length_cons, popAll, ht, andThen_next, ih htl htocc, andThen_next]

/-- Settles O23: a push puts its address on top of the occupied slots and a pop takes the top one; 16 pushes occupy them
all. -/
theorem stackHoldsSixteenAddresses : Obligations.StackHoldsSixteenAddresses := by
  intro s as hempty
  have hs : s.legalSP := .inl hempty
  have hocc := occupied_of_empty hempty
  refine ⟨fun hlen => ?_, fun hlong => ?_⟩
  · obtain ⟨t, ht, htl, -, htocc⟩ := pushAll_of_free hs (as := as) (by simpa [hocc] using hlen)
    rw [hocc, List.append_nil] at htocc
    refine ⟨t, ht, ?_⟩
    rw [← List.length_reverse, popAll_of_occupied htl htocc]
  · have hsplit : as = as.take 16 ++ as[16] :: as.drop 17 := by
      rw [List.getElem_cons_drop, List.take_append_drop]
    obtain ⟨t, ht, htl, htpc, htocc⟩ := pushAll_of_free hs (as := as.take 16) (by simp [hocc])
    have hfull : (occupied t).length = 16 := by rw [htocc, hocc]; simp; omega
    refine (congrArg (pushAll · s) hsplit).trans ?_
    rw [pushAll_append, ht, andThen_next, pushAll, push_of_full htl _ hfull, htpc, andThen_fault]

end Sys2Proof.Machine
end

section
/-! PROOFS, other statements, index register and memory: the data accesses (R62, R63), FX1E (R181), and the stores and
loads through I with what a fetch sees of them (R76, R183 to R185). -/

namespace Sys2Proof.Machine

/-! ### Data accesses -/

/-- Stored bytes leave every byte outside their range as it was. -/
theorem keepsBytes_putBytes {s : State} (h : Memory.wf s.cfg.font s.mem = true) {a : Nat} {bs : List Byte}
    (ha : a + bs.length ≤ 4096) : KeepsBytes a bs.length s (s.putBytes a bs) := by
  intro x hx
  rw [putBytes_byteAt h (.inr ha)]
  split
  · rw [List.getElem?_eq_none (by omega), Option.getD_none]
  · rfl

/-- A stored byte reads back at its place. -/
theorem putBytes_byteAt_of_getElem? {s : State} (h : Memory.wf s.cfg.font s.mem = true) {a : Nat} {bs : List Byte}
    (ha : a + bs.length ≤ 4096) {k : Nat} {b : Byte} (hk : bs[k]? = some b) : (s.putBytes a bs).byteAt (a + k) = b := by
  rw [putBytes_byteAt h (.inr ha), if_pos (Nat.le_add_right a k), Nat.add_sub_cancel_left, hk, Option.getD_some]

/-- Settles O8: each access tests its address; a write is that of one byte. -/
theorem dataAccessIsBoundsChecked : Obligations.DataAccessIsBoundsChecked := by
  intro s a b
  refine ⟨fun hin => ?_, fun hout => ?_, fun hout => ?_, fun hwf hin => ?_⟩
  · rw [memRead_eq, if_pos hin]
  · rw [memRead_eq, if_neg hout.not_gt, State.faultPc]
  · rw [memWrite_eq, if_neg hout.not_gt, State.faultPc]
  · refine ⟨s.putByte a b, by rw [memWrite_eq, if_pos hin], ?_, fun x hx => ?_, keeps_setMem s _, putByte_wf hwf hin b⟩
    · rw [putByte_byteAt hwf, if_pos rfl]
    · rw [putByte_byteAt hwf, if_neg (by omega)]

/-! ### Index register and memory -/

/-- Settles O28: one write of I with the sum modulo the word size. -/
theorem indexAddWritesNoFlag : Obligations.IndexAddWritesNoFlag := by
  intro s x
  refine ⟨_, (exec_eq_next (.addI x) s _).mpr rfl, ?_, keeps_setI s _⟩
  rw [State.setI_I, BitVec.toNat_add, zext16, BitVec.toNat_setWidth_of_le (by decide)]

/-- An address of an access is I plus its offset, with no wrap (R61, R66). -/
theorem effAddr_eq_add (s : State) (k : Nat) : effAddr s k = effAddr s 0 + k := rfl

/-- Settles O29: the store of a list of three bytes. -/
theorem decimalDigitsAreStored : Obligations.DecimalDigitsAreStored := by
  intro s x hwf
  refine ⟨fun hin => ?_, fun hout => (exec_eq_fault (.ldB x) s _).mpr ⟨hout, rfl⟩⟩
  have hv := (s.reg x).isLt
  have hfit : effAddr s 0 + (bcdDigits (s.reg x)).length ≤ 4096 := hin
  have hdigit {k d : Nat} (hk : (bcdDigits (s.reg x))[k]? = some (BitVec.ofNat 8 d)) (hd : d < 256) :
      ((s.putBytes (effAddr s 0) (bcdDigits (s.reg x))).byteAt (effAddr s k)).toNat = d := by
    rw [effAddr_eq_add s k, putBytes_byteAt_of_getElem? hwf hfit hk, BitVec.toNat_ofNat, Nat.mod_eq_of_lt hd]
  exact ⟨_, (exec_eq_next (.ldB x) s _).mpr ⟨hin, rfl⟩, hdigit rfl (by omega), hdigit rfl (by omega),
    hdigit rfl (by omega), keepsBytes_putBytes hwf hfit, keeps_putBytes s _ _⟩

theorem regsUpTo_getElem? (s : State) {x k : Reg} (h : k ≤ x) : (regsUpTo s x)[k.val]? = some (s.reg k) := by
  have hk : k.val < x.val + 1 := Nat.lt_succ_of_le h
  simp [regsUpTo, hk, State.reg]

/-- Settles O30: the store of the list of the registers up to X. -/
theorem registersAreStored : Obligations.RegistersAreStored := by
  intro s x hwf
  refine ⟨fun hin => ?_, fun hout => (exec_eq_fault (.ldMemVx x) s _).mpr ⟨Nat.lt_succ_of_le hout, rfl⟩⟩
  have hfit : effAddr s 0 + (regsUpTo s x).length ≤ 4096 := by
    rw [regsUpTo_length]
    exact hin
  have hframe := keepsBytes_putBytes hwf hfit
  rw [regsUpTo_length] at hframe
  exact ⟨_, (exec_eq_next (.ldMemVx x) s _).mpr ⟨hin, rfl⟩,
    fun k hk => putBytes_byteAt_of_getElem? hwf hfit (regsUpTo_getElem? s hk), hframe, keeps_putBytes s _ _⟩

/-- Settles O31: a load of registers from the list of the bytes read. -/
theorem registersAreLoaded : Obligations.RegistersAreLoaded := by
  intro s x
  refine ⟨fun hin => ?_, fun hout => (exec_eq_fault (.ldVxMem x) s _).mpr ⟨Nat.lt_succ_of_le hout, rfl⟩⟩
  refine ⟨_, (exec_eq_next (.ldVxMem x) s _).mpr ⟨hin, rfl⟩, fun k => ?_, keeps_setRegs s _ _⟩
  rw [setRegs_reg, if_pos (Nat.zero_le _), Nat.sub_zero]
  by_cases hk : k ≤ x
  · have hlt : k.val < x.val + 1 := Nat.lt_succ_of_le hk
    simp [hk, hlt, effAddr]
  · simp [hk]

/-- What FX55 leaves when it answers: every stored register at its address, and everything but memory as before. -/
theorem stored_of_exec_ldMemVx {s t : State} {x : Reg} (hwf : Memory.wf s.cfg.font s.mem = true)
    (h : exec (.ldMemVx x) s = .next t) :
    effAddr s x.val < 4096 ∧ (∀ k : Reg, k ≤ x → t.byteAt (effAddr s k.val) = s.reg k) ∧ Keeps [.mem] s t := by
  obtain ⟨hin, -⟩ := (exec_eq_next (.ldMemVx x) s t).mp h
  obtain ⟨t', ht', hbytes, -, hkeeps⟩ := (registersAreStored s x hwf).1 hin
  obtain rfl := next_inj.mp (h.symm.trans ht')
  exact ⟨hin, hbytes, hkeeps⟩

/-- Settles O32: the load reads from the same I the bytes that the store has put there. -/
theorem storedRegistersComeBack : Obligations.StoredRegistersComeBack := by
  intro s t u x hwf hstore hbetween
  obtain ⟨hin, hbytes, hkeeps⟩ := stored_of_exec_ldMemVx hwf hstore
  have hI : u.I = s.I := (hbetween .I (by decide)).trans (hkeeps .I (by decide))
  have haddr (k : Nat) : effAddr u k = effAddr s k := by rw [effAddr, hI, effAddr]
  obtain ⟨v, hv, hregs, -⟩ := (registersAreLoaded u x).1 (by rw [haddr]; exact hin)
  refine ⟨v, hv, fun k hk => ?_⟩
  rw [hregs k, if_pos hk, haddr, hbetween .mem (by decide), hbytes k hk]

/-- Settles O33: the store leaves pc at the first of two stored bytes, and the fetch reads both. -/
theorem nextFetchSeesTheStore : Obligations.NextFetchSeesTheStore := by
  intro s t x j k hwf hstore hjk hkx hpc
  obtain ⟨hin, hbytes, hkeeps⟩ := stored_of_exec_ldMemVx hwf hstore
  have hpc' : t.pc.toNat = effAddr s j.val := (congrArg BitVec.toNat (hkeeps .pc (by decide))).trans hpc
  have hnext : t.pc.toNat + 1 = effAddr s k.val := by rw [hpc', hjk]; rfl
  have hkx' : k.val ≤ x.val := hkx
  have hfetch : t.pc.toNat + 1 < 4096 := by
    rw [hnext, effAddr_eq_add]
    rw [effAddr_eq_add] at hin
    omega
  refine ⟨_, fetchInsn_eq_next.mpr ⟨hfetch, rfl⟩, ?_⟩
  rw [wordOfBytes_toNat, hnext, hpc', hbytes j (Fin.le_def.mpr (by omega)), hbytes k hkx]

end Sys2Proof.Machine
end

section
/-! PROOFS, other statements, display: the laws of the blit (R204) and DXYN (R206). -/

namespace Sys2Proof.Machine

theorem drawSprite_pixel (g : Grid) (x y : Byte) {sprite : List Byte} (hlen : sprite.length ≤ 15) (r : Fin 32)
    (c : Fin 64) :
    (drawSprite g x y sprite).grid.pixel r c = (g.pixel r c != spriteCovers x.toNat y.toNat sprite r c) :=
  (drawSpriteTogglesCoveredPixels g x y sprite hlen).1 r c

theorem drawSprite_collided (g : Grid) (x y : Byte) {sprite : List Byte} (hlen : sprite.length ≤ 15) :
    (drawSprite g x y sprite).collided = true ↔
      ∃ r c, spriteCovers x.toNat y.toNat sprite r c = true ∧ g.pixel r c = true :=
  (drawSpriteTogglesCoveredPixels g x y sprite hlen).2

/-- Settles O36: a draw toggles the covered pixels, so it turns off those that were on, and twice is not at all. -/
theorem blitCollisionAndSelfInverse : Obligations.BlitCollisionAndSelfInverse := by
  intro g x y sprite hlen
  refine ⟨?_, Grid.ext_pixel fun r c => ?_, ?_⟩
  · rw [drawSprite_collided g x y hlen]
    refine exists_congr fun r => exists_congr fun c => ?_
    rw [drawSprite_pixel g x y hlen]
    cases g.pixel r c <;> simp
  · rw [drawSprite_pixel _ x y hlen, drawSprite_pixel g x y hlen]
    cases g.pixel r c <;> simp
  · rw [drawSprite_collided _ x y hlen]
    refine exists_congr fun r => exists_congr fun c => ?_
    rw [drawSprite_pixel g x y hlen]
    cases g.pixel r c <;> simp

/-- Settles O37: the sprite is the list of the bytes read; the framebuffer and then VF are written from one blit. -/
theorem drawReadsRowsAndSetsFlag : Obligations.DrawReadsRowsAndSetsFlag := by
  intro s x y n
  refine ⟨fun hin => ?_, fun hne hout => (exec_eq_fault (.drw x y n) s _).mpr ⟨hne, hout, rfl⟩⟩
  have hnext : NextState s _ (.drw x y n) := ⟨hin, _, rfl, rfl⟩
  refine ⟨_, (List.range n.val).map fun k => s.byteAt (effAddr s 0 + k), (exec_eq_next (.drw x y n) s _).mpr hnext,
    by simp, fun k hk => ?_, rfl, State.setReg_reg_self .., keepsRegs_setReg (s.setFb _) 15 _, hnext.keeps⟩
  simp [hk, effAddr]

end Sys2Proof.Machine
end

section
/-! PROOFS, other statements, keyboard and timers (R230 to R237, R275, R287). -/

namespace Sys2Proof.Machine

/-! ### Key skips and the key wait -/

theorem keyOf_of_lt {b : Byte} (h : b.toNat < 16) : keyOf b = some ⟨b.toNat, h⟩ := dif_pos h

/-- Settles O39: a byte below 16 names the key of its number; a larger one faults. -/
theorem keySkipsTestOneKey : Obligations.KeySkipsTestOneKey := by
  intro s x
  refine ⟨fun hkey => ⟨?_, ?_⟩, fun hout =>
    ⟨(exec_eq_fault (.skp x) s _).mpr ⟨hout, rfl⟩, (exec_eq_fault (.sknp x) s _).mpr ⟨hout, rfl⟩⟩⟩
  · exact ⟨_, (exec_eq_next (.skp x) s _).mpr ⟨_, keyOf_of_lt hkey, rfl⟩, keeps_setPc s _, rfl⟩
  · refine ⟨_, (exec_eq_next (.sknp x) s _).mpr ⟨_, keyOf_of_lt hkey, rfl⟩, keeps_setPc s _, ?_⟩
    show (if !s.keys[(s.reg x).toNat] then s.pc + 2 else s.pc) = _
    cases s.keys[(s.reg x).toNat] <;> rfl

/-- Settles O40: one write of the mode, which reads no key. -/
theorem keyWaitParksTheEngine : Obligations.KeyWaitParksTheEngine := fun s x =>
  ⟨_, (exec_eq_next (.ldVxK x) s _).mpr rfl, rfl, keeps_setMode s _⟩

/-! ### Key events -/

theorem getElem_setKey (s : State) (k : Key) (b : Bool) (j : Key) :
    (s.setKey k b).keys[j.val] = if j = k then b else s.keys[j.val] := by
  simp only [State.setKey_keys, Vector.getElem_set, Fin.ext_iff, eq_comm]

theorem setDown_of_waiting {s : State} {x : Reg} (h : s.mode = .waitingKey x) (k : Key) :
    setDown s k = ((s.setKey k true).setReg x (BitVec.ofNat 8 k.val)).setMode .running := by
  simp [setDown, keyDownEvent, h]

theorem setDown_of_running {s : State} (h : s.mode = .running) (k : Key) : setDown s k = s.setKey k true := by
  simp [setDown, keyDownEvent, h]

/-- Settles O41, mode by mode: every key event marks its key, and a key-down in a wait latches its number too. -/
theorem keyEventsAndTheWait : Obligations.KeyEventsAndTheWait := by
  intro s k
  refine ⟨fun x hwait => ?_, fun hrun => ?_, fun hlive => ?_⟩
  · have hcall : hostCall (.setDown k) s = .next (setDown s k, .done) := hostCall_of_not_halted (by simp [hwait]) _
    have hkeeps := keeps_setDown s k
    rw [setDown_of_waiting hwait] at hcall hkeeps
    refine ⟨_, hcall, rfl, ?_, keepsRegs_setReg (s.setKey k true) x _, hkeeps, getElem_setKey s k true⟩
    rw [State.setMode_reg, State.setReg_reg_self, BitVec.toNat_ofNat]
    omega
  · have hcall : hostCall (.setDown k) s = .next (setDown s k, .done) := hostCall_of_not_halted (by simp [hrun]) _
    rw [setDown_of_running hrun] at hcall
    exact ⟨_, hcall, keeps_setKey s k true, getElem_setKey s k true⟩
  · exact ⟨_, hostCall_of_not_halted hlive _, keeps_setKey s k false, getElem_setKey s k false⟩

/-! ### The key map (R231, R284) -/

namespace KeyMap

/-- The scan counts its positions from `k` on and answers the first one whose identifier matches. -/
theorem scan_eq_findIdx? (e : Nat) (ids : List Nat) (k : Nat) :
    scan e ids k = (ids.findIdx? (· == e)).map (· + k) := by
  induction ids generalizing k with
  | nil => rfl
  | cons id rest ih =>
    rw [scan, ih, List.findIdx?_cons]
    by_cases h : id = e
    · simp [h]
    · simp [h, Option.map_map, Function.comp_def, Nat.add_comm, Nat.add_left_comm]

/-- `mapKey` finds a key exactly when the key's identifier is the first one that matches. -/
theorem mapKey_eq_some (m : KeyMap) (e : Nat) (k : Key) :
    m.mapKey e = some k ↔ m.ids[k.val] = e ∧ ∀ j : Key, j < k → m.ids[j.val] ≠ e := by
  have hfind : m.mapKey e = some k ↔ m.ids.toList.findIdx? (· == e) = some k.val := by
    rw [mapKey, scan_eq_findIdx?]
    cases m.ids.toList.findIdx? (· == e) with
    | none => simp
    | some i => simpa [Fin.ext_iff] using fun e => e ▸ k.isLt
  rw [hfind, List.findIdx?_eq_some_iff_getElem]
  constructor
  · rintro ⟨_, hk, hbefore⟩
    exact ⟨by simpa using hk, fun j hj => by simpa using hbefore j.val hj⟩
  · rintro ⟨hk, hbefore⟩
    exact ⟨by simp, by simpa using hk, fun j hj => by simpa using hbefore ⟨j, by omega⟩ hj⟩

/-- `mapKey` finds no key exactly when no identifier matches. -/
theorem mapKey_eq_none (m : KeyMap) (e : Nat) (h : ∀ j : Key, m.ids[j.val] ≠ e) : m.mapKey e = none := by
  rw [Option.eq_none_iff_forall_ne_some]
  exact fun k hk => h k ((mapKey_eq_some m e k).mp hk).1

end KeyMap

/-- Settles O43: the scan is the library's search for the first match. -/
theorem mapKeyFindsTheFirstMatch : Obligations.MapKeyFindsTheFirstMatch := by
  intro m e
  refine ⟨m.mapKey_eq_some e, fun hout => ?_⟩
  rw [keyDownCall, keyUpCall, m.mapKey_eq_none e hout]
  exact ⟨rfl, rfl⟩

/-! ### Timers (R275, R287) -/

theorem countDown_toNat (b : Byte) : (countDown b).toNat = b.toNat - 1 := by
  unfold countDown
  split
  · next h => rw [h]; rfl
  · bv_omega

/-- Settles O45: on a machine that is not halted each call is its own operation. -/
theorem decayCountsDownToZero : Obligations.DecayCountsDownToZero := by
  intro s hlive
  refine ⟨⟨_, hostCall_of_not_halted hlive .decay, ?_, ?_, keeps_decay s⟩, hostCall_of_not_halted hlive .soundCount⟩
  · exact countDown_toNat s.DT
  · exact countDown_toNat s.ST

end Sys2Proof.Machine
end
